-- ==== Sys2Proof/Word.lean ====
section
/-! DEFINITION. The widths of the block's values (00_scope.md R7, R8): bytes on the wire and in the
payload buffer, and 16-bit registers. Time samples are natural numbers: "The rules of this spec treat
time as a mathematical natural number" (R121); `TIME_WIDTH` bounds them (log 5). -/

namespace Sys2Proof

/-- "A *byte* is an unsigned 8-bit value, 0 to 255" (R8). -/
abbrev Byte := BitVec 8

/-- A 16-bit unsigned register or field: a length, a count, a checksum (R18 to R20, R29). -/
abbrev Half := BitVec 16

end Sys2Proof
end

