-- ==== Sys2Proof/Machine/Operands.lean ====
section
/-! DEFINITION. Every operand form of the block: zero extension, the two bytes of a 16-bit field, and
the assembly of a field from two bytes (R8, R37, R48, R50, R76). There is no signed form (R8). -/

namespace Sys2Proof.Machine

/-- `zext_16(v)` (R8). -/
def zext16 (v : Byte) : Half := v.setWidth 16

/-- `zext_16(v) << 8`: a byte in bits 15:8 (R67, R71). -/
def highByte (v : Byte) : Half := zext16 v <<< 8

/-- `v[15:8]`, the byte of a field that is sent and received first (R8, R37). -/
def hiOf (v : Half) : Byte := v.extractLsb' 8 8

/-- `v[7:0]` (R8). -/
def loOf (v : Half) : Byte := v.extractLsb' 0 8

/-- `r | zext_16(v)`: the low byte joins the high one (R68, R72). -/
def joinLow (r : Half) (v : Byte) : Half := r ||| zext16 v

/-- A payload's length as the 16-bit value the ENCODE request carries (R98); exact for the lengths
the encoder accepts. -/
def lengthHalf (p : List Byte) : Half := BitVec.ofNat 16 p.length

end Sys2Proof.Machine
end

