-- ==== Sys2Proof/Machine/Checksum.lean ====
section
/-! DEFINITION. The CRC-16/XMODEM function (42_crc16.md R101 to R105). PRESUMED by the spec: its
parameters are "from general knowledge, not in source" (log 9). -/

namespace Sys2Proof.Machine

/-- `CRC.INIT()` (R103). -/
def crcInit : Half := 0x0000

/-- One of the eight rounds of `CRC.BYTE` (R104); the shift discards bit 15. -/
def crcRound (r : Half) : Half :=
  if r.getLsbD 15 then (r <<< 1) ^^^ 0x1021 else r <<< 1

/-- `n` rounds (R104: "repeat 8 times"). -/
def crcRounds : Nat → Half → Half
  | 0, r => r
  | n + 1, r => crcRounds n (crcRound r)

/-- `CRC.BYTE(r, v)` (R104). -/
def crcByte (r : Half) (v : Byte) : Half := crcRounds 8 (r ^^^ highByte v)

/-- The loop of R102 over a byte sequence, from a register value. -/
def crcOver : Half → List Byte → Half
  | r, [] => r
  | r, v :: s => crcOver (crcByte r v) s

/-- `CRC.FINAL(r)` (R105). -/
def crcFinal (r : Half) : Half := r

/-- `CRC16(s)` (R102). -/
def crc16 (s : List Byte) : Half := crcFinal (crcOver crcInit s)

end Sys2Proof.Machine
end

