-- ==== Sys2Proof/Config.lean ====
section
/-! DEFINITION. What an implementation or the environment fixes: the configuration inputs of
00_scope.md R6 and 10_state.md R22 to R25, and the free values (opaque constants without a body). -/

namespace Sys2Proof

/-- `ALLOC_STRATEGY` (R25). "no rule reads this parameter". -/
inductive AllocStrategy where
  | fixed
  | perFrame
  deriving DecidableEq, Repr

/-- The configuration inputs of one decoder instance, "constant for the life of a decoder instance:
no operation of the block writes them" (R6). The type of `maxCapacity` is its legal range,
0 to 65535 (R22). -/
structure CodecConfig where
  /-- `MAX_CAPACITY` (R22). -/
  maxCapacity : Half
  /-- `TIMEOUT_EN` (R23). -/
  timeoutEn : Bool
  /-- `TIMEOUT_INTERVAL`, "in the same units as `now`" (R24). -/
  timeoutInterval : Nat
  /-- `TIME_WIDTH`, a "natural number or unbounded" (R6), `none` for unbounded: the width of `now` and
  of `lastActivityTime` (R26). -/
  timeWidth : Option Nat
  /-- `ALLOC_STRATEGY` (R25). -/
  allocStrategy : AllocStrategy
  deriving DecidableEq, Repr

/-- DESIGN CHOICE (log 2), unsafe: the configuration `State.reset` carries. The spec gives no value
("Reset value: none, it is an input", R22); these are the settings 95_test_vectors.md assumes
"unless a vector says otherwise", and time unbounded, as the rules use it (D7). No statement rests on
them. -/
def CodecConfig.vectors : CodecConfig where
  maxCapacity := 64
  timeoutEn := false
  timeoutInterval := 0
  timeWidth := none
  allocStrategy := .fixed

namespace Config

/-- Free value (log 4): what `elen` holds between ENCODE operations, "any value" (U20). The argument
is the number of the draw. -/
opaque freeElen : Nat → Half

/-- Free value (log 4): what `eidx` holds between ENCODE operations (U20). -/
opaque freeEidx : Nat → Half

/-- Free value (log 4): what `ecrc` holds between ENCODE operations (U20). -/
opaque freeEcrc : Nat → Half

/-- Free value (log 11): what the handler named `handler` answers at call number `call` to
`messageHandler(id, body, bodyLength)`; `true` is accept (R109, U22). -/
opaque handlerAccepts : (call handler : Nat) → (id : Byte) → (body : List Byte) →
  (bodyLength : Nat) → Bool

end Config

end Sys2Proof
end

