-- ==== Sys2Proof/Syntax.lean ====
section
/-! DEFINITION. The enumerations of the block, its operations (`Instr`, one constructor per row of
opcode_table.json) and the words that select them (`OpWord`). -/

namespace Sys2Proof

/-- `stage`, "one of `AwaitStart, LenShort, LenHi, LenLo, Payload, CrcHi, CrcLo, AwaitEnd`" (R17). -/
inductive Stage where
  | awaitStart
  | lenShort
  | lenHi
  | lenLo
  | payload
  | crcHi
  | crcLo
  | awaitEnd
  deriving DecidableEq, Repr

/-- `estage`, the encoder's sequencer (R29). -/
inductive EStage where
  | eIdle
  | eStart
  | eLenShort
  | eLenHi
  | eLenLo
  | ePayload
  | eCrcHi
  | eCrcLo
  | eEnd
  deriving DecidableEq, Repr

/-- "The block and its dispatcher report exactly five error kinds, and no others" (R114), in the
order of R115. -/
inductive ErrorKind where
  | receiveTimeout
  | crcError
  | endByteError
  | unhandledMessage
  | memoryError
  deriving DecidableEq, Repr

/-- The output event of a decoder step: "`None`; `Completed(s)` ...; or `Error(K)`" (R31). -/
inductive Event where
  | noEvent
  | completed (payload : List Byte)
  | error (kind : ErrorKind)
  deriving DecidableEq, Repr

/-- The operations of the block and of its boundary: one constructor per row of opcode_table.json. A
byte-step that accepts more than one byte value carries the received byte. -/
inductive Instr where
  | dStartShort
  | dStartLong
  | dNoise (b : Byte)
  | dLenShort (b : Byte)
  | dLenHi (b : Byte)
  | dLenLo (b : Byte)
  | dPayload (b : Byte)
  | dCrcHi (b : Byte)
  | dCrcLo (b : Byte)
  | dEndOk
  | dEndBad (b : Byte)
  | dReset
  | dTimeoutPrologue (now : Nat)
  | eStart
  | eLenShort
  | eLenHi
  | eLenLo
  | ePayload
  | eCrcHi
  | eCrcLo
  | eEnd
  | encode (p : List Byte)
  | crc16 (p : List Byte)
  | crcInit
  | crcByte (r : Half) (v : Byte)
  | crcFinal (r : Half)
  | dispatch (p : List Byte)
  | report (kind : ErrorKind)
  deriving DecidableEq, Repr

/-- A call of an operation "with no wire encoding" (format `FN`, R60), with its operands. -/
inductive Service where
  | encode (p : List Byte)
  | crc16 (p : List Byte)
  | crcInit
  | crcByte (r : Half) (v : Byte)
  | crcFinal (r : Half)
  | dispatch (p : List Byte)
  | report (kind : ErrorKind)
  deriving DecidableEq, Repr

/-- What selects an operation, the counterpart of an instruction word (R2): for the decoder "the
received byte `b` (8 bits) together with the current `stage`"; the reset input; the time sample of
the byte-step's prologue; for the encoder its sequencer; for an `FN` row the call itself. -/
inductive OpWord where
  | rx (stage : Stage) (b : Byte)
  | softReset
  | timeSample (now : Nat)
  | tx (estage : EStage)
  | call (f : Service)
  deriving DecidableEq, Repr

end Sys2Proof
end

