-- ==== Sys2Proof/WellFormed.lean ====
section
/-! DEFINITION. Which operand values an operation of `Instr` admits. -/

namespace Sys2Proof

/-- The operand checks of the rows: `D.NOISE` is "any byte `b` other than `0x02` and `0x03`" (R65),
`D.END_BAD` "any byte `b` other than `0x03`" (R74); a payload or a checksummed sequence has 0 to
65535 bytes (R88, R101); `DISPATCH` "requires len(s) >= 1" (R109), and what it is given is a
payload. -/
def Instr.wellFormed : Instr → Bool
  | .dNoise b => b != 0x02 && b != 0x03
  | .dEndBad b => b != 0x03
  | .encode p => decide (p.length ≤ 65535)
  | .crc16 p => decide (p.length ≤ 65535)
  | .dispatch p => decide (1 ≤ p.length ∧ p.length ≤ 65535)
  | .dStartShort | .dStartLong | .dLenShort _ | .dLenHi _ | .dLenLo _ | .dPayload _ | .dCrcHi _
  | .dCrcLo _ | .dEndOk | .dReset | .dTimeoutPrologue _ => true
  | .eStart | .eLenShort | .eLenHi | .eLenLo | .ePayload | .eCrcHi | .eCrcLo | .eEnd => true
  | .crcInit | .crcByte _ _ | .crcFinal _ | .report _ => true

end Sys2Proof
end

