-- ==== Sys2Proof/Decode.lean ====
section
/-! DEFINITION. The operation map (30_encoding.md R54, R55, R60): from the word that selects an
operation to the operation, and back. -/

namespace Sys2Proof

/-- The number of a stage, "0 to 7 in the source's order ... no rule depends on the numbers" (R17). -/
def Stage.code : Stage → Nat
  | .awaitStart => 0
  | .lenShort => 1
  | .lenHi => 2
  | .lenLo => 3
  | .payload => 4
  | .crcHi => 5
  | .crcLo => 6
  | .awaitEnd => 7

/-- The stage of a number below 8; "no encoding is unused" (R17). -/
def Stage.ofCode : Nat → Option Stage
  | 0 => some .awaitStart
  | 1 => some .lenShort
  | 2 => some .lenHi
  | 3 => some .lenLo
  | 4 => some .payload
  | 5 => some .crcHi
  | 6 => some .crcLo
  | 7 => some .awaitEnd
  | _ => none

/-- The number of an error kind (R115); "no rule depends on them". -/
def ErrorKind.code : ErrorKind → Nat
  | .receiveTimeout => 0
  | .crcError => 1
  | .endByteError => 2
  | .unhandledMessage => 3
  | .memoryError => 4

/-- The value of the suggested port `evt_kind`: "7 for `Completed` and the code of R115 for an
error"; no event, no value (R34, not normative). -/
def Event.kindCode : Event → Option Nat
  | .noEvent => none
  | .completed _ => some 7
  | .error k => some k.code

/-- One `RX` row of the table: "`b & mask == match` is the test" (R54). -/
structure RxRow where
  stage : Stage
  wanted : Byte
  mask : Byte
  op : Byte → Instr

/-- The byte-step rows in the order of trial within each stage (R54). -/
def rxRows : List RxRow :=
  [ ⟨.awaitStart, 0x02, 0xFF, fun _ => .dStartShort⟩,
    ⟨.awaitStart, 0x03, 0xFF, fun _ => .dStartLong⟩,
    ⟨.awaitStart, 0x00, 0x00, .dNoise⟩,
    ⟨.lenShort, 0x00, 0x00, .dLenShort⟩,
    ⟨.lenHi, 0x00, 0x00, .dLenHi⟩,
    ⟨.lenLo, 0x00, 0x00, .dLenLo⟩,
    ⟨.payload, 0x00, 0x00, .dPayload⟩,
    ⟨.crcHi, 0x00, 0x00, .dCrcHi⟩,
    ⟨.crcLo, 0x00, 0x00, .dCrcLo⟩,
    ⟨.awaitEnd, 0x03, 0xFF, fun _ => .dEndOk⟩,
    ⟨.awaitEnd, 0x00, 0x00, .dEndBad⟩ ]

/-- Whether a row applies in a stage to a byte (R54). -/
def RxRow.selects (r : RxRow) (stage : Stage) (b : Byte) : Bool :=
  decide (r.stage = stage) && decide (b &&& r.mask = r.wanted)

/-- Why a word selects no operation. -/
inductive DecodeError where
  /-- No row of the stage matches the byte. The map of R54 has no such pair ("Every pair selects
  exactly one row"), so nothing meets this error. -/
  | noRow (stage : Stage) (b : Byte)
  /-- In `EIdle` the encoder has no emission step (R29, R55). -/
  | encoderIdle
  deriving DecidableEq, Repr

/-- "look up the rows of the current stage, take the first whose test holds" (R60). -/
def decodeRx (stage : Stage) (b : Byte) : Except DecodeError Instr :=
  match rxRows.find? (fun r => r.selects stage b) with
  | some r => .ok (r.op b)
  | none => .error (.noRow stage b)

/-- The emission step of each value of the sequencer (R55, R90 to R97). -/
def decodeTx : EStage → Except DecodeError Instr
  | .eIdle => .error .encoderIdle
  | .eStart => .ok .eStart
  | .eLenShort => .ok .eLenShort
  | .eLenHi => .ok .eLenHi
  | .eLenLo => .ok .eLenLo
  | .ePayload => .ok .ePayload
  | .eCrcHi => .ok .eCrcHi
  | .eCrcLo => .ok .eCrcLo
  | .eEnd => .ok .eEnd

/-- The operation a call names. -/
def decodeCall : Service → Instr
  | .encode p => .encode p
  | .crc16 p => .crc16 p
  | .crcInit => .crcInit
  | .crcByte r v => .crcByte r v
  | .crcFinal r => .crcFinal r
  | .dispatch p => .dispatch p
  | .report k => .report k

/-- The operation a word selects, or the name of the reason why it selects none. -/
def decode : OpWord → Except DecodeError Instr
  | .rx stage b => decodeRx stage b
  | .softReset => .ok .dReset
  | .timeSample now => .ok (.dTimeoutPrologue now)
  | .tx estage => decodeTx estage
  | .call f => .ok (decodeCall f)

/-- The word that selects an operation: its stage and byte for a byte-step (R54), its sequencer value
for an emission step (R55), the input or the call for the others (R60). -/
def encode : Instr → OpWord
  | .dStartShort => .rx .awaitStart 0x02
  | .dStartLong => .rx .awaitStart 0x03
  | .dNoise b => .rx .awaitStart b
  | .dLenShort b => .rx .lenShort b
  | .dLenHi b => .rx .lenHi b
  | .dLenLo b => .rx .lenLo b
  | .dPayload b => .rx .payload b
  | .dCrcHi b => .rx .crcHi b
  | .dCrcLo b => .rx .crcLo b
  | .dEndOk => .rx .awaitEnd 0x03
  | .dEndBad b => .rx .awaitEnd b
  | .dReset => .softReset
  | .dTimeoutPrologue now => .timeSample now
  | .eStart => .tx .eStart
  | .eLenShort => .tx .eLenShort
  | .eLenHi => .tx .eLenHi
  | .eLenLo => .tx .eLenLo
  | .ePayload => .tx .ePayload
  | .eCrcHi => .tx .eCrcHi
  | .eCrcLo => .tx .eCrcLo
  | .eEnd => .tx .eEnd
  | .encode p => .call (.encode p)
  | .crc16 p => .call (.crc16 p)
  | .crcInit => .call .crcInit
  | .crcByte r v => .call (.crcByte r v)
  | .crcFinal r => .call (.crcFinal r)
  | .dispatch p => .call (.dispatch p)
  | .report k => .call (.report k)

/-- A word given by its bits as the table numbers them. DESIGN CHOICE (log 15): bits 7..0 are the
received byte and bits 10..8 the number of the stage (R2, R17), so an 8-bit table word stands for the
byte received in `AwaitStart`, the stage after reset; a word with a bit above 10 stands for none. -/
def tableWord (nbits w : Nat) : Option (Stage × Byte) :=
  (Stage.ofCode (w % 2 ^ nbits / 256)).map fun st => (st, BitVec.ofNat 8 (w % 2 ^ nbits))

/-- The operation the decoder reads from a table word. -/
def decodeTableWord (nbits w : Nat) : Option Instr :=
  match tableWord nbits w with
  | none => none
  | some (st, b) =>
    match decodeRx st b with
    | .ok i => some i
    | .error _ => none

end Sys2Proof
end

