-- ==== Sys2Proof/Machine/State.lean ====
section
/-! DEFINITION. The state of the codec (10_state.md), of its environment as far as the table's
boundary rows need it (43_dispatch_boundary.md), the reasons a step can stop, and reset. -/

namespace Sys2Proof.Machine

/-- The payload buffer `PB` (R21, R35): its bytes by index, in ONE canonical form (`Memory.wf`). An
index that is not listed holds no value ("A model should represent an unwritten buffer byte as having
no value", R44; log 3). -/
abbrev Memory := List Host.Cell

/-- What the environment does to the block, one item a step (R30, R32, R110, R129; log 1). -/
inductive Stimulus where
  /-- "a byte-step takes one byte `b` (8 bits) and one time sample `now`" (R30 a). -/
  | rxByte (b : Byte) (now : Nat)
  /-- The `soft_reset` input: one `D.RESET` step (R30 b, R75). -/
  | softReset
  /-- Hardware reset (R129). -/
  | hardReset
  /-- "an ENCODE request carrying a payload `P`" (R32); the emission steps follow one by one. -/
  | encodeRequest (p : List Byte)
  /-- The encoder's turn: it takes one emission step if it has one to take (R10, R41; log 14). -/
  | emit
  /-- A call of an operation with no wire encoding (format `FN`, R60; log 10). -/
  | invoke (f : Service)
  /-- The application registers a message handler (R110). -/
  | registerHandler (handler : Nat)
  /-- The application registers an error observer (R110). -/
  | registerObserver (observer : Nat)
  deriving DecidableEq, Repr

/-- One call "`messageHandler(id: byte, body: bytes, bodyLength: integer) -> boolean`" of the
registered handler (R109). -/
structure HandlerCall where
  handler : Nat
  id : Byte
  body : List Byte
  bodyLength : Nat
  deriving DecidableEq, Repr

/-- One call "`errorObserver(kind)`" of the registered observer; "no length, byte, checksum or time
value accompanies it" (R113). -/
structure ObserverCall where
  observer : Nat
  kind : ErrorKind
  deriving DecidableEq, Repr

/-- The codec and its environment. INVENTORY.md, heading State, gives for each field the rule that
names it and its reset value. -/
structure State where
  /-- `stage` (R17). -/
  stage : Stage
  /-- `targetLength` (R18). -/
  targetLength : Half
  /-- `bytesConsumed` (R19). -/
  bytesConsumed : Half
  /-- `crcAccumulator`, the declared checksum (R20). -/
  crcAccumulator : Half
  /-- `payloadBuffer`, `PB` (R21). -/
  pb : Memory
  /-- `lastActivityTime` (R26). -/
  lastActivityTime : Nat
  /-- The output event of the latest decoder step (R31; log 20). -/
  event : Event
  /-- `estage` (R29). -/
  estage : EStage
  /-- `elen` (R29). -/
  elen : Half
  /-- `eidx` (R29). -/
  eidx : Half
  /-- `ecrc` (R29). -/
  ecrc : Half
  /-- `TXP`, the payload of the ENCODE in progress (R32, R35 b). -/
  txp : List Byte
  /-- The bytes pushed to the sink, in emission order (R32; log 21). -/
  sink : List Byte
  /-- The model's own: how many times the encoder's registers have taken free values (log 4). -/
  encDraws : Nat
  /-- The configuration inputs (R22 to R25; log 2). -/
  cfg : CodecConfig
  /-- The handler slot (R110). -/
  handler : Option Nat
  /-- The error-observer slot (R110). -/
  observer : Option Nat
  /-- The model's own: the handler calls made, oldest first (log 11). -/
  handlerCalls : List HandlerCall
  /-- The model's own: the observer calls made, oldest first (log 11). -/
  observerCalls : List ObserverCall
  /-- The model's own: the value the latest call of the checksum service returned (R101; log 10). -/
  crcOut : Half
  /-- The model's own: what the environment does next, in order (log 1). -/
  pending : List Stimulus
  deriving DecidableEq, Repr

/-- Why the machine stops with a fault. No state that a run from reset reaches raises one
(R16, R36). -/
inductive Fault where
  /-- Raised by the accessors of `PB` (`memWrite`, `memRead`) at an index at or above `MAX_CAPACITY`,
  where there is no byte (R21, R36). Safe: the machine stops where the spec has no access. -/
  | bufferOutOfRange (index : Nat)
  /-- Raised by `memRead` at an index the current frame has not written: the byte has no value (R44).
  Safe. -/
  | bufferUnwritten (index : Nat)
  /-- Raised by `E.PAYLOAD` at an index at or above the length of `TXP`, where there is no byte
  (R35 b, R94). Safe. -/
  | payloadSourceOutOfRange (index : Nat)
  deriving DecidableEq, Repr

/-- Why an operation has no meaning. -/
inductive Refusal where
  /-- Raised by an arm of `exec` whose instruction has no meaning yet. Safe. -/
  | notModelled (mnemonic : String)
  /-- Raised by `D.TIMEOUT_PROLOGUE`: "require `now >= lastActivityTime` at every byte-step; a step
  that violates this has no meaning in the model (refuse it)" (R121). Safe. -/
  | timeWentBack (now last : Nat)
  /-- Raised by `D.TIMEOUT_PROLOGUE` at a sample that needs more than `TIME_WIDTH` bits, where a counter
  of that width has wrapped around: a step whose sample decreases "has no meaning in the model (refuse
  it), as does a counter wrap-around" (R121, U3; log 5). Safe. -/
  | timeWrapped (now width : Nat)
  /-- Raised by an ENCODE request or call: "a request made while `estage != EIdle` is the
  environment's error and has no meaning in the model" (R99). Safe. -/
  | encoderBusy
  /-- Raised by an ENCODE request or call: a model "must *refuse* `len(P) > 65535` (give it no
  meaning) rather than truncate the length" (R98). Safe. -/
  | payloadTooLong (length : Nat)
  /-- Raised by `DISPATCH`: "`DISPATCH([])` has no meaning: a model that includes the dispatcher must
  refuse it" (R112). Safe. -/
  | emptyDispatch
  /-- Raised by a byte-step whose stage and byte select no row; the map of R54 has no such pair.
  Safe. -/
  | undecodable (why : DecodeError)
  deriving DecidableEq, Repr

/-- The machine right after hardware reset, for a given configuration (the first column of R27,
R129). -/
def State.resetWith (cfg : CodecConfig) : State where
  stage := .awaitStart
  targetLength := 0
  bytesConsumed := 0
  crcAccumulator := 0
  pb := []
  lastActivityTime := 0
  event := .noEvent
  estage := .eIdle
  elen := 0
  eidx := 0
  ecrc := 0
  txp := []
  sink := []
  encDraws := 0
  cfg := cfg
  handler := none
  observer := none
  handlerCalls := []
  observerCalls := []
  crcOut := 0
  pending := []

/-- The machine right after reset. The configuration is an input, so the spec gives no value; this
one is a DESIGN CHOICE (log 2), and `State.resetWith` is reset for every configuration. -/
def State.reset : State := State.resetWith .vectors

end Sys2Proof.Machine
end

