-- ==== Sys2Proof/Machine/Flags.lean ====
section
/-! DEFINITION. The conditions a step tests. The block has "no condition codes and no status flags"
(R28): each condition is computed where it is tested, and the source's first-byte flag is no
register. -/

namespace Sys2Proof.Machine

/-- The width a sample does not fit, if `TIME_WIDTH` bounds the samples (R6, R26) and it does not: a
counter of that width has wrapped around by then (R121, log 5). -/
def exceededWidth (cfg : CodecConfig) (now : Nat) : Option Nat :=
  match cfg.timeWidth with
  | none => none
  | some w => if now < 2 ^ w then none else some w

/-- The timeout test of the prologue (R62, R120): strict, and never true in `AwaitStart`. -/
def timeoutExpired (s : State) (now : Nat) : Bool :=
  decide (s.stage ≠ .awaitStart) && s.cfg.timeoutEn &&
    decide (now - s.lastActivityTime > s.cfg.timeoutInterval)

/-- `targetLength > MAX_CAPACITY` (R69, R114). -/
def overCapacity (s : State) : Bool := decide (s.targetLength > s.cfg.maxCapacity)

/-- `bytesConsumed == targetLength` (R70). -/
def payloadComplete (s : State) : Bool := decide (s.bytesConsumed = s.targetLength)

/-- `elen < 256`: the short form (R90). -/
def shortForm (n : Half) : Bool := decide (n < 256)

end Sys2Proof.Machine
end

