-- ==== Sys2Proof/Machine/Ops.lean ====
section
/-! DEFINITION. The shared operations: the payload buffer, clearing and raising (the block's taking of
an exception, R116), payload entry (R69), the sink, the encoder's start and end, reset, and the
boundary with the dispatcher and the error reporter. -/

namespace Sys2Proof.Machine

/-- Go on with `f` where an operation answers a next state; a stop stays a stop. -/
def andThen (o : Host.Outcome State Fault Refusal) (f : State → Host.Outcome State Fault Refusal) :
    Host.Outcome State Fault Refusal :=
  match o with
  | .next s => f s
  | .fault r => .fault r
  | .refused r => .refused r

/-- The canonical form of the buffer: indices strictly rising. (No entry equals what an unlisted
index reads as, since that is no value.) -/
abbrev Memory.wf (m : Memory) : Prop := (m.map Prod.fst).Pairwise (· < ·)

/-- The byte at an index, if the buffer holds one. -/
def Memory.read : Memory → Nat → Option Byte
  | [], _ => none
  | (k, v) :: m, a => if k = a then some v else Memory.read m a

/-- The buffer with a byte written at an index; it keeps the canonical form. -/
def Memory.write : Memory → Nat → Byte → Memory
  | [], a, v => [(a, v)]
  | (k, w) :: m, a, v =>
    if a < k then (a, v) :: (k, w) :: m
    else if a = k then (a, v) :: m
    else (k, w) :: Memory.write m a v

/-- `MemWrite(a, 1, v)` (R9): "0 <= a < `MAX_CAPACITY`" (R35); there is no other index. -/
def memWrite (s : State) (a : Nat) (v : Byte) : Host.Outcome State Fault Refusal :=
  if a < s.cfg.maxCapacity.toNat then .next { s with pb := s.pb.write a v }
  else .fault (.bufferOutOfRange a)

/-- `MemRead(a, 1)` (R9); a byte the current frame has not written has no value (R44). -/
def memRead (s : State) (a : Nat) : Except Fault Byte :=
  if a < s.cfg.maxCapacity.toNat then
    match s.pb.read a with
    | some v => .ok v
    | none => .error (.bufferUnwritten a)
  else .error (.bufferOutOfRange a)

/-- `n` bytes of `PB` from index `a` on, "in ascending order" (R78). -/
def readRange (s : State) : (a n : Nat) → Except Fault (List Byte)
  | _, 0 => .ok []
  | a, n + 1 =>
    match memRead s a with
    | .ok v =>
      match readRange s (a + 1) n with
      | .ok vs => .ok (v :: vs)
      | .error r => .error r
    | .error r => .error r

/-- `PB[0..targetLength)` (R9, R73). -/
def readPayload (s : State) : Except Fault (List Byte) := readRange s 0 s.targetLength.toNat

/-- `clear()` (R9, R116): every decoder register except `lastActivityTime` takes its reset value and
the contents of `PB` become unspecified, that is, no index holds a value (R44). -/
def clear (s : State) : State :=
  { s with stage := .awaitStart, targetLength := 0, bytesConsumed := 0, crcAccumulator := 0, pb := [] }

/-- `raise K()` (R9, R116), the block's taking of an exception: the step's output event becomes
`Error(K)`, and `clear()`. Nothing is saved. There is no return operation (R119): after it the
decoder is in `AwaitStart`. -/
def raiseError (k : ErrorKind) (s : State) : State := clear { s with event := .error k }

/-- `event <- Completed(s); clear()` (R73). -/
def complete (p : List Byte) (s : State) : State := clear { s with event := .completed p }

/-- `enter_payload()` (R69): it consumes no byte and runs at the end of the step that completed the
length. -/
def enterPayload (s : State) : State :=
  let s1 := { s with bytesConsumed := 0 }
  if overCapacity s1 then raiseError .memoryError s1
  else if s1.targetLength = 0 then { s1 with stage := .crcHi }
  else { s1 with stage := .payload }

/-- `sink(v)` (R32): "the sink always accepts". -/
def pushSink (v : Byte) (s : State) : State := { s with sink := s.sink ++ [v] }

/-- `ENCODE(P)`, the bytes of a whole frame (R88, R45, R46). -/
def encodeFrame (p : List Byte) : List Byte :=
  let n := lengthHalf p
  let c := crc16 p
  (if shortForm n then [0x02, loOf n] else [0x03, hiOf n, loOf n]) ++ p ++ [hiOf c, loOf c, 0x03]

/-- The encoder at rest: `estage` is `EIdle`, "the other three hold no meaningful value" (R29): free
values (U20, log 4), and no trace of the payload is left (R97). -/
def encoderIdle (s : State) : State :=
  { s with
    estage := .eIdle
    elen := Config.freeElen s.encDraws
    eidx := Config.freeEidx s.encDraws
    ecrc := Config.freeEcrc s.encDraws
    txp := []
    encDraws := s.encDraws + 1 }

/-- Whether an ENCODE of a payload has a meaning in a state: at most 65535 bytes (R98), and only in
`EIdle` (R99). -/
def encodeRefusal (p : List Byte) (s : State) : Option Refusal :=
  if 65535 < p.length then some (.payloadTooLong p.length)
  else if s.estage ≠ .eIdle then some .encoderBusy
  else none

/-- An ENCODE request accepted in `EIdle`: "`elen <- L; eidx <- 0; ecrc <- CRC16(P); estage <-
EStart`" (41_encoder.md, before R90); `TXP` is the payload (R32). -/
def acceptEncode (p : List Byte) (s : State) : Host.Outcome State Fault Refusal :=
  match encodeRefusal p s with
  | some r => .refused r
  | none =>
    .next { s with txp := p, elen := lengthHalf p, eidx := 0, ecrc := crc16 p, estage := .eStart }

/-- Hardware reset (R129, first column of R27): the decoder cleared, `lastActivityTime` 0, the encoder
idle, no event. The configuration is "inputs, not reset"; the environment is not the block's. DESIGN
CHOICE (log 19): the slots, the records of calls, the sink, the pending stimuli and `crcOut`, the model's
place for a returned value, are left as they are; only `State.resetWith` gives them their first
values. -/
def hardReset (s : State) : State :=
  encoderIdle (clear { s with event := .noEvent, lastActivityTime := 0 })

/-- `report(kind)` (R113): the registered observer, if any, is called with the kind. -/
def reportKind (k : ErrorKind) (s : State) : State :=
  match s.observer with
  | none => s
  | some o => { s with observerCalls := s.observerCalls ++ [⟨o, k⟩] }

/-- What the handler answers to a call, and no handler accepts nothing (R109); the answer is a free
value of the application (log 11). -/
def handlerAnswer (s : State) (id : Byte) (body : List Byte) : Bool :=
  match s.handler with
  | none => false
  | some h => Config.handlerAccepts s.handlerCalls.length h id body body.length

/-- The call of the registered handler, recorded (R109). -/
def callHandler (id : Byte) (body : List Byte) (s : State) : State :=
  match s.handler with
  | none => s
  | some h => { s with handlerCalls := s.handlerCalls ++ [⟨h, id, body, body.length⟩] }

/-- `DISPATCH(s)` for a payload of at least one byte, its first byte and the rest (R109): the handler
is called; "If no handler is registered, or the handler rejects, the dispatcher signals
`UnhandledMessage`." -/
def dispatchMessage (id : Byte) (body : List Byte) (s : State) : State :=
  if handlerAnswer s id body then callHandler id body s
  else reportKind .unhandledMessage (callHandler id body s)

end Sys2Proof.Machine
end

