-- ==== Sys2Proof/Machine/Receive.lean ====
section
/-! DEFINITION. The decoder's operations (40_decoder.md R62 to R75): the bodies of a byte-step, the
timeout prologue and `D.RESET`. As in the pseudocode, a body does not test the stage: the operation
map has done so (log 17). -/

namespace Sys2Proof.Machine

/-- `D.START_SHORT` (R63). -/
def execDStartShort (s : State) : Host.Outcome State Fault Refusal :=
  .next { s with stage := .lenShort }

/-- `D.START_LONG` (R64). -/
def execDStartLong (s : State) : Host.Outcome State Fault Refusal :=
  .next { s with stage := .lenHi }

/-- `D.NOISE` (R65): the byte is ignored, "`stage` stays `AwaitStart`". -/
def execDNoise (_b : Byte) (s : State) : Host.Outcome State Fault Refusal := .next s

/-- `D.LEN_SHORT` (R66). -/
def execDLenShort (b : Byte) (s : State) : Host.Outcome State Fault Refusal :=
  .next (enterPayload { s with targetLength := zext16 b })

/-- `D.LEN_HI` (R67). -/
def execDLenHi (b : Byte) (s : State) : Host.Outcome State Fault Refusal :=
  .next { s with targetLength := highByte b, stage := .lenLo }

/-- `D.LEN_LO` (R68). -/
def execDLenLo (b : Byte) (s : State) : Host.Outcome State Fault Refusal :=
  .next (enterPayload { s with targetLength := joinLow s.targetLength b })

/-- `D.PAYLOAD` (R70): the byte is stored at index `bytesConsumed`, which is then incremented; the
completion test follows. -/
def execDPayload (b : Byte) (s : State) : Host.Outcome State Fault Refusal :=
  andThen (memWrite s s.bytesConsumed.toNat b) fun s1 =>
    let s2 := { s1 with bytesConsumed := s1.bytesConsumed + 1 }
    .next { s2 with stage := if payloadComplete s2 then .crcHi else .payload }

/-- `D.CRC_HI` (R71). -/
def execDCrcHi (b : Byte) (s : State) : Host.Outcome State Fault Refusal :=
  .next { s with crcAccumulator := highByte b, stage := .crcLo }

/-- `D.CRC_LO` (R72). -/
def execDCrcLo (b : Byte) (s : State) : Host.Outcome State Fault Refusal :=
  .next { s with crcAccumulator := joinLow s.crcAccumulator b, stage := .awaitEnd }

/-- `D.END_OK` (R73). -/
def execDEndOk (s : State) : Host.Outcome State Fault Refusal :=
  match readPayload s with
  | .error r => .fault r
  | .ok p =>
    if crc16 p = s.crcAccumulator then .next (complete p s) else .next (raiseError .crcError s)

/-- `D.END_BAD` (R74). -/
def execDEndBad (_b : Byte) (s : State) : Host.Outcome State Fault Refusal :=
  .next (raiseError .endByteError s)

/-- `D.RESET` (R75): `clear()`, event `None`, `lastActivityTime` unchanged. -/
def execDReset (s : State) : Host.Outcome State Fault Refusal :=
  .next (clear { s with event := .noEvent })

/-- `D.TIMEOUT_PROLOGUE` (R62, R120): raise `ReceiveTimeout` if the gap is too long, then
`lastActivityTime <- now`. A sample below the last one is refused, and one past a wrap-around of the
time counter (R121). -/
def execDTimeoutPrologue (now : Nat) (s : State) : Host.Outcome State Fault Refusal :=
  if now < s.lastActivityTime then .refused (.timeWentBack now s.lastActivityTime)
  else
    match exceededWidth s.cfg now with
    | some w => .refused (.timeWrapped now w)
    | none =>
      let s1 := if timeoutExpired s now then raiseError .receiveTimeout s else s
      .next { s1 with lastActivityTime := now }

end Sys2Proof.Machine
end

