-- ==== Sys2Proof/Machine/Service.lean ====
section
/-! DEFINITION. The operations without a wire encoding that belong to no agent: the checksum service
(42_crc16.md R102 to R105) and the boundary operations (43_dispatch_boundary.md R109, R113). A call of
the checksum service delivers its value in `crcOut` (log 10). -/

namespace Sys2Proof.Machine

/-- `CRC16(s)` (R102). -/
def execCrc16 (p : List Byte) (s : State) : Host.Outcome State Fault Refusal :=
  .next { s with crcOut := crc16 p }

/-- `CRC.INIT()` (R103). -/
def execCrcInit (s : State) : Host.Outcome State Fault Refusal := .next { s with crcOut := crcInit }

/-- `CRC.BYTE(r, v)` (R104). -/
def execCrcByte (r : Half) (v : Byte) (s : State) : Host.Outcome State Fault Refusal :=
  .next { s with crcOut := crcByte r v }

/-- `CRC.FINAL(r)` (R105). -/
def execCrcFinal (r : Half) (s : State) : Host.Outcome State Fault Refusal :=
  .next { s with crcOut := crcFinal r }

/-- `DISPATCH(s)` (R109): the first byte is the identifier, the rest the body. "`DISPATCH([])` has no
meaning" (R112). -/
def execDispatch (p : List Byte) (s : State) : Host.Outcome State Fault Refusal :=
  match p with
  | [] => .refused .emptyDispatch
  | id :: body => .next (dispatchMessage id body s)

/-- `report(kind)` (R113). -/
def execReport (kind : ErrorKind) (s : State) : Host.Outcome State Fault Refusal :=
  .next (reportKind kind s)

end Sys2Proof.Machine
end

