-- ==== Sys2Proof/Machine/Transmit.lean ====
section
/-! DEFINITION. The encoder's emission steps (41_encoder.md R90 to R97) and the whole operation
`ENCODE` (R88). As in the pseudocode, a step does not test `estage`: the operation map has done so
(log 17). -/

namespace Sys2Proof.Machine

/-- `E.START` (R90). -/
def execEStart (s : State) : Host.Outcome State Fault Refusal :=
  if shortForm s.elen then .next { pushSink 0x02 s with estage := .eLenShort }
  else .next { pushSink 0x03 s with estage := .eLenHi }

/-- `E.LEN_SHORT` (R91). -/
def execELenShort (s : State) : Host.Outcome State Fault Refusal :=
  .next { pushSink (loOf s.elen) s with estage := if s.elen = 0 then .eCrcHi else .ePayload }

/-- `E.LEN_HI` (R92). -/
def execELenHi (s : State) : Host.Outcome State Fault Refusal :=
  .next { pushSink (hiOf s.elen) s with estage := .eLenLo }

/-- `E.LEN_LO` (R93). -/
def execELenLo (s : State) : Host.Outcome State Fault Refusal :=
  .next { pushSink (loOf s.elen) s with estage := .ePayload }

/-- `E.PAYLOAD` (R94). There is no byte of `TXP` beyond its length (R35 b). -/
def execEPayload (s : State) : Host.Outcome State Fault Refusal :=
  match s.txp[s.eidx.toNat]? with
  | none => .fault (.payloadSourceOutOfRange s.eidx.toNat)
  | some v =>
    let i := s.eidx + 1
    .next { pushSink v s with
      eidx := i
      estage := if i = s.elen then .eCrcHi else .ePayload }

/-- `E.CRC_HI` (R95). -/
def execECrcHi (s : State) : Host.Outcome State Fault Refusal :=
  .next { pushSink (hiOf s.ecrc) s with estage := .eCrcLo }

/-- `E.CRC_LO` (R96). -/
def execECrcLo (s : State) : Host.Outcome State Fault Refusal :=
  .next { pushSink (loOf s.ecrc) s with estage := .eEnd }

/-- `E.END` (R97): "after it the encoder holds no trace of the payload". -/
def execEEnd (s : State) : Host.Outcome State Fault Refusal :=
  .next (encoderIdle (pushSink 0x03 s))

/-- `ENCODE(P)` as one operation (R88): the frame is pushed to the sink and the encoder is idle again.
It "equals E.START .. E.END in order" (opcode_table.json); a payload over 65535 bytes (R98) and a busy
encoder (R99) are refused. -/
def execEncode (p : List Byte) (s : State) : Host.Outcome State Fault Refusal :=
  match encodeRefusal p s with
  | some r => .refused r
  | none => .next (encoderIdle { s with sink := s.sink ++ encodeFrame p })

end Sys2Proof.Machine
end

