-- ==== Sys2Proof/Machine/Dispatch.lean ====
section
/-! DEFINITION. One arm per operation: the meaning it calls. -/

namespace Sys2Proof.Machine

def exec (i : Instr) (s : State) : Host.Outcome State Fault Refusal :=
  match i with
  | .dStartShort => Sys2Proof.Machine.execDStartShort s
  | .dStartLong => Sys2Proof.Machine.execDStartLong s
  | .dNoise b => Sys2Proof.Machine.execDNoise b s
  | .dLenShort b => Sys2Proof.Machine.execDLenShort b s
  | .dLenHi b => Sys2Proof.Machine.execDLenHi b s
  | .dLenLo b => Sys2Proof.Machine.execDLenLo b s
  | .dPayload b => Sys2Proof.Machine.execDPayload b s
  | .dCrcHi b => Sys2Proof.Machine.execDCrcHi b s
  | .dCrcLo b => Sys2Proof.Machine.execDCrcLo b s
  | .dEndOk => Sys2Proof.Machine.execDEndOk s
  | .dEndBad b => Sys2Proof.Machine.execDEndBad b s
  | .dReset => Sys2Proof.Machine.execDReset s
  | .dTimeoutPrologue now => Sys2Proof.Machine.execDTimeoutPrologue now s
  | .eStart => Sys2Proof.Machine.execEStart s
  | .eLenShort => Sys2Proof.Machine.execELenShort s
  | .eLenHi => Sys2Proof.Machine.execELenHi s
  | .eLenLo => Sys2Proof.Machine.execELenLo s
  | .ePayload => Sys2Proof.Machine.execEPayload s
  | .eCrcHi => Sys2Proof.Machine.execECrcHi s
  | .eCrcLo => Sys2Proof.Machine.execECrcLo s
  | .eEnd => Sys2Proof.Machine.execEEnd s
  | .encode p => Sys2Proof.Machine.execEncode p s
  | .crc16 p => Sys2Proof.Machine.execCrc16 p s
  | .crcInit => Sys2Proof.Machine.execCrcInit s
  | .crcByte r v => Sys2Proof.Machine.execCrcByte r v s
  | .crcFinal r => Sys2Proof.Machine.execCrcFinal r s
  | .dispatch p => Sys2Proof.Machine.execDispatch p s
  | .report k => Sys2Proof.Machine.execReport k s

end Sys2Proof.Machine
end

