-- ==== Sys2Proof/Machine/Sequence.lean ====
section
/-! DEFINITION. What one step of the machine does around `exec`: the byte-step (R62), the environment's
synchronous reaction to an output event (R109, R116), the encoder's turn (R55), and the choice of what
moves next (log 1, log 14). -/

namespace Sys2Proof.Machine

/-- The environment's reaction to the output event of a byte-step, "inside the byte-step that produced
the event" (R109): a completed payload is dispatched, an error reported once (R113, R116). An empty
payload meets the precondition of no dispatch and gets none (log 12). -/
def react (s : State) : Host.Outcome State Fault Refusal :=
  match s.event with
  | .noEvent => .next s
  | .completed [] => .next s
  | .completed (id :: body) => exec (.dispatch (id :: body)) s
  | .error k => exec (.report k) s

/-- The body of a byte-step: the one operation the map selects for (`stage`, `b`), "with `stage` read
*after* the prologue" (R62). -/
def byteBody (b : Byte) (s : State) : Host.Outcome State Fault Refusal :=
  match decode (.rx s.stage b) with
  | .ok i => exec i s
  | .error e => .refused (.undecodable e)

/-- One byte-step (R62): event `None`, the prologue, one body, and the environment's reaction to the
event. -/
def byteStep (b : Byte) (now : Nat) (s : State) : Host.Outcome State Fault Refusal :=
  andThen (andThen (exec (.dTimeoutPrologue now) { s with event := .noEvent }) (byteBody b)) react

/-- The encoder's turn: the emission step its sequencer selects (R55); in `EIdle` it has none to take
and nothing changes. -/
def emitStep (s : State) : Host.Outcome State Fault Refusal :=
  match decode (.tx s.estage) with
  | .ok i => exec i s
  | .error _ => .next s

/-- One stimulus of the environment. -/
def perform (x : Stimulus) (s : State) : Host.Outcome State Fault Refusal :=
  match x with
  | .rxByte b now => byteStep b now s
  | .softReset => exec .dReset s
  | .hardReset => .next (hardReset s)
  | .encodeRequest p => acceptEncode p s
  | .emit => emitStep s
  | .invoke f => exec (decodeCall f) s
  | .registerHandler h => .next { s with handler := some h }
  | .registerObserver o => .next { s with observer := some o }

/-- What moves next: the environment's next stimulus; when there is none, the encoder if it is
emitting; otherwise the block "is simply idle and keeps all its state indefinitely" (R128). -/
def cycle (s : State) : Host.Outcome State Fault Refusal :=
  match s.pending with
  | x :: rest => perform x { s with pending := rest }
  | [] => emitStep s

/-- A state in which the very next step is a byte-step that interprets the byte `b` in the stage `st`:
the stage is part of the instruction word (R2), and the time sample equals the last one, so that no
timeout fires (R120). -/
def offerByte (st : Stage) (b : Byte) (s : State) : State :=
  { s with stage := st, pending := .rxByte b s.lastActivityTime :: s.pending }

end Sys2Proof.Machine
end

