-- ==== Sys2Proof/Machine/Step.lean ====
section
/-! DEFINITION. The step of the machine, and where it finds its next operation. -/

namespace Sys2Proof.Machine

/-- One atomic step (R10). -/
def step (s : State) : Host.Outcome State Fault Refusal := cycle s

/-- `s` with a table word placed where the next step finds it (log 1, log 15). A word that stands for
no byte-step leaves `s` as it is. -/
def State.withFetchWord (s : State) (nbits w : Nat) : State :=
  match tableWord nbits w with
  | some (st, b) => offerByte st b s
  | none => s

end Sys2Proof.Machine
end

