-- ==== Sys2Proof/Safety.lean ====
section
/-! DEFINITION. What counts as a good state (the invariants of 10_state.md R16, and the same for the
encoder's sequencer), and runs of the machine with the events they produce. -/

namespace Sys2Proof.Machine

/-- The invariants of the decoder (R16 ii to vi; i holds by the registers' type). Of iii, that the
bytes are those of the in-flight frame in arrival order is a statement about a run. -/
structure DecoderInv (s : State) : Prop where
  /-- `PB` holds a byte at exactly the indices below `bytesConsumed` (R44, R16 iii). -/
  buffer : s.pb.map Prod.fst = List.range s.bytesConsumed.toNat
  /-- R16 ii. -/
  payload : s.stage = .payload →
    s.bytesConsumed < s.targetLength ∧ s.targetLength ≤ s.cfg.maxCapacity
  /-- R16 iii. -/
  received : s.stage = .crcHi ∨ s.stage = .crcLo ∨ s.stage = .awaitEnd →
    s.targetLength ≤ s.cfg.maxCapacity ∧ s.bytesConsumed = s.targetLength
  /-- R16 iv. -/
  resting : s.stage = .awaitStart →
    s.targetLength = 0 ∧ s.bytesConsumed = 0 ∧ s.crcAccumulator = 0
  /-- R16 v, first part. -/
  noLength : s.stage = .lenShort ∨ s.stage = .lenHi → s.targetLength = 0 ∧ s.bytesConsumed = 0
  /-- R16 v, second part. -/
  halfLength : s.stage = .lenLo → loOf s.targetLength = 0 ∧ s.bytesConsumed = 0
  /-- R16 vi. -/
  halfChecksum : s.stage = .crcLo → loOf s.crcAccumulator = 0
  /-- The decoder never reports `UnhandledMessage` (R111). -/
  ownKinds : s.event ≠ .error .unhandledMessage
  /-- `lastActivityTime` has the width `TIME_WIDTH` (R26). -/
  timeWidth : exceededWidth s.cfg s.lastActivityTime = none
  /-- A completed payload has "length 0 to `MAX_CAPACITY`" (R31). -/
  ownPayloads : ∀ p, s.event = .completed p → p.length ≤ s.cfg.maxCapacity.toNat

/-- The invariants of the encoder's sequencer: what R29 and R90 to R97 say is "known" in each of its
states. -/
structure EncoderInv (s : State) : Prop where
  /-- "after it the encoder holds no trace of the payload" (R97). -/
  idle : s.estage = .eIdle → s.txp = []
  /-- "`elen` (16 bits, the payload length `L`) ... `ecrc` (16 bits, `CRC16` of the payload)" (R29). -/
  busy : s.estage ≠ .eIdle → s.txp.length = s.elen.toNat ∧ s.ecrc = crc16 s.txp
  /-- No payload byte is emitted before the length. -/
  header : s.estage = .eStart ∨ s.estage = .eLenShort ∨ s.estage = .eLenHi ∨ s.estage = .eLenLo →
    s.eidx = 0
  /-- "`elen`, known to be below 256" (R91). -/
  short : s.estage = .eLenShort → s.elen < 256
  /-- "`elen`, known to be 256 or more" (R92, R93). -/
  long : s.estage = .eLenHi ∨ s.estage = .eLenLo → 256 ≤ s.elen
  /-- "`eidx < elen <= 65535`" (R94). -/
  body : s.estage = .ePayload → s.eidx < s.elen

/-- The states a run from reset can reach satisfy this. -/
structure CodecInv (s : State) : Prop where
  decoder : DecoderInv s
  encoder : EncoderInv s

/-- A byte stream with one time sample per byte, as the environment feeds it (R2, R30). -/
def rxStream (bytes : List Byte) (times : List Nat) : List Stimulus :=
  List.zipWith Stimulus.rxByte bytes times

/-- `n` steps and the output event after each, if no step stops. -/
def runEvents : Nat → State → Option (State × List Event)
  | 0, s => some (s, [])
  | n + 1, s =>
    match step s with
    | .next t =>
      match runEvents n t with
      | some (u, es) => some (u, t.event :: es)
      | none => none
    | .fault _ => none
    | .refused _ => none

/-- `n` steps, stopping at the first fault or refusal. -/
def runSteps : Nat → State → Host.Outcome State Fault Refusal
  | 0, s => .next s
  | n + 1, s => andThen (step s) (runSteps n)

/-- Samples that follow the sample `last`, never decrease, and with the timeout enabled leave no gap
longer than the interval, and fit `TIME_WIDTH` (R120, R121, R26). -/
def SamplesInTime (cfg : CodecConfig) : Nat → List Nat → Prop
  | _, [] => True
  | last, t :: ts =>
    last ≤ t ∧ exceededWidth cfg t = none ∧
      (cfg.timeoutEn = true → t - last ≤ cfg.timeoutInterval) ∧ SamplesInTime cfg t ts

/-- Samples of a frame that begins in `AwaitStart`: "In `AwaitStart` no gap, however long, is a
timeout" (R120), so the first sample only may not decrease, and fits `TIME_WIDTH`. -/
def FrameInTime (cfg : CodecConfig) (last : Nat) : List Nat → Prop
  | [] => True
  | t :: ts => last ≤ t ∧ exceededWidth cfg t = none ∧ SamplesInTime cfg t ts

/-- Samples that never decrease and fit `TIME_WIDTH` (R121). -/
def NeverDecreasing (cfg : CodecConfig) : Nat → List Nat → Prop
  | _, [] => True
  | last, t :: ts => last ≤ t ∧ exceededWidth cfg t = none ∧ NeverDecreasing cfg t ts

/-- The bytes of a frame with a given header, declared checksum and end byte (R45, R46). -/
def wireFrame (header p : List Byte) (c : Half) (last : Byte) : List Byte :=
  header ++ p ++ [hiOf c, loOf c, last]

/-- The short-form header of a payload (R45). -/
def shortHeader (p : List Byte) : List Byte := [0x02, loOf (lengthHalf p)]

/-- The long-form header of a payload (R46), which the decoder accepts for every length (R58). -/
def longHeader (p : List Byte) : List Byte := [0x03, hiOf (lengthHalf p), loOf (lengthHalf p)]

/-- Whether a header declares the length of a payload: the long form always can, the short form below
256 (R47, R58). -/
def Declares (header p : List Byte) : Prop :=
  header = longHeader p ∨ (header = shortHeader p ∧ p.length < 256)

/-- The events of a frame of `n` bytes: none but the last step's (R83, R84). -/
def onlyLast (n : Nat) (e : Event) : List Event := List.replicate (n - 1) .noEvent ++ [e]

/-- The registers of a decoder in its initial state (R27, R79). That its buffer then holds no byte is the
model's choice after R44 (log 3). -/
def AtRest (s : State) : Prop :=
  s.stage = .awaitStart ∧ s.targetLength = 0 ∧ s.bytesConsumed = 0 ∧ s.crcAccumulator = 0 ∧ s.pb = []

end Sys2Proof.Machine
end

