-- ==== Sys2Proof/Certificates/Slice0/Obligations.lean ====
section
/-! DEFINITION. The statements about the codec, one per definition; OBLIGATIONS.json lists them. Each
docstring names the rule of spec/ it formalises. -/

open Sys2Proof Sys2Proof.Machine

/-! ### Selection of operations -/

/-- Words written out from the tables of R54, R55 and R60, one or more per format. -/
def Obligations.SampleWordsSelectTheirOperations : Prop :=
  decode (.rx .awaitStart 0b00000010) = .ok .dStartShort ∧
  decode (.rx .awaitStart 0b00000011) = .ok .dStartLong ∧
  decode (.rx .awaitStart 0b01111111) = .ok (.dNoise 0x7F) ∧
  decode (.rx .lenShort 0b00000011) = .ok (.dLenShort 3) ∧
  decode (.rx .payload 0b00000010) = .ok (.dPayload 2) ∧
  decode (.rx .awaitEnd 0b00000011) = .ok .dEndOk ∧
  decode (.rx .awaitEnd 0b00000010) = .ok (.dEndBad 2) ∧
  decode .softReset = .ok .dReset ∧
  decode (.tx .eStart) = .ok .eStart ∧
  decode (.tx .eEnd) = .ok .eEnd ∧
  decode (.tx .eIdle) = .error .encoderIdle ∧
  decode (.call (.crcByte 0x1021 2)) = .ok (.crcByte 0x1021 2) ∧
  decodeTableWord 8 0x02 = some .dStartShort ∧
  decodeTableWord 8 0x7F = some (.dNoise 0x7F)

/-- R54: "Within a stage the rows are tried from top to bottom and the first that matches is taken";
"Every pair selects exactly one row". -/
def Obligations.EveryStageAndByteSelectsOneRow : Prop :=
  ∀ (st : Stage) (b : Byte), ∃ before r after,
    rxRows = before ++ r :: after ∧
    r.stage = st ∧ b &&& r.mask = r.wanted ∧
    (∀ q ∈ before, ¬ (q.stage = st ∧ b &&& q.mask = q.wanted)) ∧
    decode (.rx st b) = .ok (r.op b)

/-- The word of every well-formed operation selects that operation again. -/
def Obligations.EncodedOperationsDecodeBack : Prop :=
  ∀ i : Instr, i.wellFormed = true → decode (encode i) = .ok i

/-- What a received byte or the sequencer selects is well-formed and has that word: no two words of
the receive and transmit formats select the same operation. -/
def Obligations.SelectedOperationsEncodeBack : Prop :=
  (∀ st b i, decode (.rx st b) = .ok i → i.wellFormed = true ∧ encode i = .rx st b) ∧
  (∀ e i, decode (.tx e) = .ok i → i.wellFormed = true ∧ encode i = .tx e)

/-- R62, R54, R55: a step runs the operation its word selects. A received byte is interpreted in the
stage the prologue leaves (decision D6 of the spec); the reaction of the environment follows. That the
next operation stands in `pending` is the model's (log 1, log 14). -/
def Obligations.StepRunsTheSelectedOperation : Prop :=
  (∀ s s1 b now rest i, s.pending = .rxByte b now :: rest →
    exec (.dTimeoutPrologue now) { s with pending := rest, event := .noEvent } = .next s1 →
    decode (.rx s1.stage b) = .ok i → step s = andThen (exec i s1) react) ∧
  (∀ s rest i, s.pending = .softReset :: rest → decode .softReset = .ok i →
    step s = exec i { s with pending := rest }) ∧
  (∀ s rest i, s.pending = .emit :: rest → decode (.tx s.estage) = .ok i →
    step s = exec i { s with pending := rest }) ∧
  (∀ s i, s.pending = [] → decode (.tx s.estage) = .ok i → step s = exec i s) ∧
  (∀ s f rest i, s.pending = .invoke f :: rest → decode (.call f) = .ok i →
    step s = exec i { s with pending := rest })

/-! ### The decoder's operations -/

/-- R63, R64, R65. -/
def Obligations.StartBytesAndNoise : Prop :=
  decode (.rx .awaitStart 0x02) = .ok .dStartShort ∧
  decode (.rx .awaitStart 0x03) = .ok .dStartLong ∧
  (∀ b, b ≠ 0x02 → b ≠ 0x03 → decode (.rx .awaitStart b) = .ok (.dNoise b)) ∧
  (∀ s, exec .dStartShort s = .next { s with stage := .lenShort }) ∧
  (∀ s, exec .dStartLong s = .next { s with stage := .lenHi }) ∧
  (∀ b s, exec (.dNoise b) s = .next s)

/-- R66, R69: the byte is the whole length; over capacity, zero, and the rest. That the capacity is
tested in the length byte's own step is decision D2 of the spec (log 6); what the error clears is R116
(D8), and that the buffer then holds no byte is the model's choice after R44 (log 3). -/
def Obligations.ShortLengthByteEntersPayload : Prop :=
  ∀ (s : State) (b : Byte), decode (.rx .lenShort b) = .ok (.dLenShort b) ∧
    (s.cfg.maxCapacity.toNat < b.toNat → exec (.dLenShort b) s =
      .next { s with
        event := .error .memoryError, stage := .awaitStart, targetLength := 0
        bytesConsumed := 0, crcAccumulator := 0, pb := [] }) ∧
    (b = 0 → exec (.dLenShort b) s =
      .next { s with targetLength := 0, bytesConsumed := 0, stage := .crcHi }) ∧
    (b ≠ 0 → b.toNat ≤ s.cfg.maxCapacity.toNat → ∃ n : Half, n.toNat = b.toNat ∧
      exec (.dLenShort b) s =
        .next { s with targetLength := n, bytesConsumed := 0, stage := .payload })

/-- R67: the high-order length byte is held in `targetLength[15:8]`; no capacity test yet
(the place of the half-assembled length is decision D16 of the spec). -/
def Obligations.HighLengthByteIsHeld : Prop :=
  ∀ (s : State) (b : Byte), decode (.rx .lenHi b) = .ok (.dLenHi b) ∧
    ∃ n : Half, n.toNat = 256 * b.toNat ∧
      exec (.dLenHi b) s = .next { s with targetLength := n, stage := .lenLo }

/-- R68, R69: the low-order byte joins; with the low byte 0 on entry the length is the sum (R76). The
moment of the capacity test is decision D2 of the spec (log 6); what the error clears is R116 (D8), and
that the buffer then holds no byte is the model's choice after R44 (log 3). -/
def Obligations.LowLengthByteEntersPayload : Prop :=
  ∀ (s : State) (b : Byte), decode (.rx .lenLo b) = .ok (.dLenLo b) ∧
    ∃ n : Half, n = s.targetLength ||| b.setWidth 16 ∧
      (loOf s.targetLength = 0 → n.toNat = s.targetLength.toNat + b.toNat) ∧
      (s.cfg.maxCapacity.toNat < n.toNat → exec (.dLenLo b) s =
        .next { s with
          event := .error .memoryError, stage := .awaitStart, targetLength := 0
          bytesConsumed := 0, crcAccumulator := 0, pb := [] }) ∧
      (n = 0 → exec (.dLenLo b) s =
        .next { s with targetLength := 0, bytesConsumed := 0, stage := .crcHi }) ∧
      (n ≠ 0 → n.toNat ≤ s.cfg.maxCapacity.toNat → exec (.dLenLo b) s =
        .next { s with targetLength := n, bytesConsumed := 0, stage := .payload })

/-- R70: the byte is stored at index `bytesConsumed`, every other byte of the buffer reads as before,
the count grows by one, and the stage moves on when the count reaches the length. -/
def Obligations.PayloadByteIsStored : Prop :=
  ∀ (s : State) (b : Byte), decode (.rx .payload b) = .ok (.dPayload b) ∧
    (s.bytesConsumed < s.targetLength → s.targetLength ≤ s.cfg.maxCapacity →
      ∃ t, exec (.dPayload b) s = .next t ∧
        memRead t s.bytesConsumed.toNat = .ok b ∧
        (∀ a, a ≠ s.bytesConsumed.toNat → memRead t a = memRead s a) ∧
        t.bytesConsumed.toNat = s.bytesConsumed.toNat + 1 ∧
        t.stage = (if t.bytesConsumed = s.targetLength then .crcHi else .payload) ∧
        t = { s with pb := t.pb, bytesConsumed := t.bytesConsumed, stage := t.stage })

/-- R71, R72: the declared checksum is assembled high byte first (in `crcAccumulator`: decision D16 of
the spec). -/
def Obligations.ChecksumBytesAreAssembled : Prop :=
  ∀ (s : State) (b : Byte),
    decode (.rx .crcHi b) = .ok (.dCrcHi b) ∧ decode (.rx .crcLo b) = .ok (.dCrcLo b) ∧
    (∃ c : Half, c.toNat = 256 * b.toNat ∧
      exec (.dCrcHi b) s = .next { s with crcAccumulator := c, stage := .crcLo }) ∧
    (∃ c : Half, c = s.crcAccumulator ||| b.setWidth 16 ∧
      (loOf s.crcAccumulator = 0 → c.toNat = s.crcAccumulator.toNat + b.toNat) ∧
      exec (.dCrcLo b) s = .next { s with crcAccumulator := c, stage := .awaitEnd })

/-- R73: on the end byte the checksum of the stored payload is compared with the declared one. The
registers cleared are R116 (decision D8 of the spec, log 22); that the buffer then holds no byte is the
model's choice after R44 (log 3). -/
def Obligations.EndByteComparesTheChecksum : Prop :=
  decode (.rx .awaitEnd 0x03) = .ok .dEndOk ∧
  ∀ (s : State) (p : List Byte), p.length = s.targetLength.toNat →
    p.length ≤ s.cfg.maxCapacity.toNat → (∀ i, i < p.length → s.pb.read i = p[i]?) →
    (crc16 p = s.crcAccumulator → exec .dEndOk s =
      .next { s with
        event := .completed p, stage := .awaitStart, targetLength := 0
        bytesConsumed := 0, crcAccumulator := 0, pb := [] }) ∧
    (crc16 p ≠ s.crcAccumulator → exec .dEndOk s =
      .next { s with
        event := .error .crcError, stage := .awaitStart, targetLength := 0
        bytesConsumed := 0, crcAccumulator := 0, pb := [] })

/-- R74: any other byte in the END position is an error, whatever the checksum. The registers cleared are
R116 (decision D8 of the spec, log 22); that the buffer then holds no byte is the model's choice after
R44 (log 3). -/
def Obligations.WrongEndByteIsAnError : Prop :=
  ∀ (s : State) (b : Byte),
    (b ≠ 0x03 → decode (.rx .awaitEnd b) = .ok (.dEndBad b)) ∧
    exec (.dEndBad b) s =
      .next { s with
        event := .error .endByteError, stage := .awaitStart, targetLength := 0
        bytesConsumed := 0, crcAccumulator := 0, pb := [] }

/-- R75: `D.RESET` clears the decoder, produces no event and leaves `lastActivityTime`; between any
two byte-steps. What it clears is decision D8 of the spec (log 22), its form D17; that the buffer then holds no
byte is the model's choice after R44 (log 3). -/
def Obligations.SoftResetAbandonsTheFrame : Prop :=
  decode .softReset = .ok .dReset ∧
  (∀ s, exec .dReset s =
    .next { s with
      event := .noEvent, stage := .awaitStart, targetLength := 0
      bytesConsumed := 0, crcAccumulator := 0, pb := [] }) ∧
  (∀ s rest, s.pending = .softReset :: rest → ∃ t, step s = .next t ∧ AtRest t ∧
    t.event = .noEvent ∧ t.lastActivityTime = s.lastActivityTime ∧ t.pending = rest)

/-- R120: the timeout test, outside `AwaitStart` only; then the sample is kept. That it is strict and
that every byte-step keeps its sample are decisions D4 and D5 of the spec (log 7, log 8); what the error
clears is R116 (D8), and that the buffer then holds no byte is the model's choice after R44 (log 3). The
sample fits `TIME_WIDTH` (log 5). -/
def Obligations.TimeoutPrologueTestsTheGap : Prop :=
  ∀ (s : State) (now : Nat), s.lastActivityTime ≤ now → exceededWidth s.cfg now = none →
    (s.cfg.timeoutEn = true → s.stage ≠ .awaitStart →
      s.cfg.timeoutInterval < now - s.lastActivityTime →
      exec (.dTimeoutPrologue now) s =
        .next { s with
          event := .error .receiveTimeout, stage := .awaitStart, targetLength := 0
          bytesConsumed := 0, crcAccumulator := 0, pb := [], lastActivityTime := now }) ∧
    (s.cfg.timeoutEn = false ∨ s.stage = .awaitStart ∨
        now - s.lastActivityTime ≤ s.cfg.timeoutInterval →
      exec (.dTimeoutPrologue now) s = .next { s with lastActivityTime := now })

/-- R121: a sample below the last one is refused, in every stage, whether or not the timeout is
enabled (decision D7 of the spec; log 5). -/
def Obligations.DecreasingTimeIsRefused : Prop :=
  (∀ (s : State) (now : Nat), now < s.lastActivityTime →
    exec (.dTimeoutPrologue now) s = .refused (.timeWentBack now s.lastActivityTime)) ∧
  (∀ s b now rest, s.pending = .rxByte b now :: rest → now < s.lastActivityTime →
    step s = .refused (.timeWentBack now s.lastActivityTime))

/-! ### The decoder as a whole -/

/-- The invariants hold after reset, whatever the configuration. -/
def Obligations.ResetSatisfiesTheInvariants : Prop :=
  (∀ cfg, CodecInv (State.resetWith cfg)) ∧ CodecInv State.reset

/-- R16, and what R29 and R90 to R97 say is known in each state of the sequencer: every step from a
state with the invariants leads to a state with them. -/
def Obligations.EveryStepKeepsTheInvariants : Prop :=
  ∀ s t, CodecInv s → step s = .next t → CodecInv t

/-- R61: "the decoder takes a byte-step in *every* state (there is no state in which a byte is
refused, stalled or lost)", given the monotonic samples of R121, which fit `TIME_WIDTH` (log 5). -/
def Obligations.EveryByteIsAccepted : Prop :=
  ∀ s b now rest, CodecInv s → s.pending = .rxByte b now :: rest → s.lastActivityTime ≤ now →
    exceededWidth s.cfg now = none →
    ∃ t, step s = .next t ∧ t.pending = rest ∧ t.lastActivityTime = now

/-- No step from a state with the invariants faults (R36), and only the environment's errors that the
spec names are refused: a decreasing sample or one past a wrap-around (R121; log 5), an ENCODE that is too long (R98) or made while busy
(R99), and the dispatch of an empty payload (R112). These refusals are decisions D7, D14, D15 and D18
of the spec. -/
def Obligations.OnlyTheEnvironmentsErrorsStop : Prop :=
  ∀ s, CodecInv s → (∀ r, step s ≠ .fault r) ∧
    (∀ r, step s = .refused r →
      (∃ b now rest, s.pending = .rxByte b now :: rest ∧ now < s.lastActivityTime ∧
        r = .timeWentBack now s.lastActivityTime) ∨
      (∃ b now rest w, s.pending = .rxByte b now :: rest ∧ s.lastActivityTime ≤ now ∧
        s.cfg.timeWidth = some w ∧ 2 ^ w ≤ now ∧ r = .timeWrapped now w) ∨
      (∃ p rest, (s.pending = .encodeRequest p :: rest ∨ s.pending = .invoke (.encode p) :: rest) ∧
        (65535 < p.length ∧ r = .payloadTooLong p.length ∨
          p.length ≤ 65535 ∧ s.estage ≠ .eIdle ∧ r = .encoderBusy)) ∨
      (∃ rest, s.pending = .invoke (.dispatch []) :: rest ∧ r = .emptyDispatch))

/-- R83: the bytes of `ENCODE(P)`, fed one per byte-step from `AwaitStart` with no timeout, yield no
event but `Completed(P)` at the last byte.
(`AtRest`: the empty buffer is the model's choice after R44, log 3). -/
def Obligations.DecodingAnEncodedFrameGivesThePayload : Prop :=
  ∀ (s : State) (p : List Byte) (times : List Nat) (rest : List Stimulus),
    s.stage = .awaitStart → p.length ≤ s.cfg.maxCapacity.toNat →
    times.length = (encodeFrame p).length → FrameInTime s.cfg s.lastActivityTime times →
    s.pending = rxStream (encodeFrame p) times ++ rest →
    ∃ t, runEvents (encodeFrame p).length s =
        some (t, onlyLast (encodeFrame p).length (.completed p)) ∧
      AtRest t ∧ t.pending = rest

/-- R84 (a): with any declared checksum other than that of the payload (a flipped bit among them),
exactly one `CrcError` and no completed payload, at the END byte.
(`AtRest`: the empty buffer is the model's choice after R44, log 3). -/
def Obligations.WrongChecksumGivesOneCrcError : Prop :=
  ∀ (s : State) (header p : List Byte) (c : Half) (times : List Nat) (rest : List Stimulus),
    s.stage = .awaitStart → p.length ≤ s.cfg.maxCapacity.toNat → Declares header p →
    c ≠ crc16 p → times.length = (wireFrame header p c 0x03).length →
    FrameInTime s.cfg s.lastActivityTime times →
    s.pending = rxStream (wireFrame header p c 0x03) times ++ rest →
    ∃ t, runEvents (wireFrame header p c 0x03).length s =
        some (t, onlyLast (wireFrame header p c 0x03).length (.error .crcError)) ∧
      AtRest t ∧ t.pending = rest

/-- R84 (b), R124 (2): with any other byte in place of the end delimiter, exactly one `EndByteError`,
whatever the declared checksum.
(`AtRest`: the empty buffer is the model's choice after R44, log 3). -/
def Obligations.WrongEndGivesOneEndByteError : Prop :=
  ∀ (s : State) (header p : List Byte) (c : Half) (e : Byte) (times : List Nat)
    (rest : List Stimulus),
    s.stage = .awaitStart → p.length ≤ s.cfg.maxCapacity.toNat → Declares header p →
    e ≠ 0x03 → times.length = (wireFrame header p c e).length →
    FrameInTime s.cfg s.lastActivityTime times →
    s.pending = rxStream (wireFrame header p c e) times ++ rest →
    ∃ t, runEvents (wireFrame header p c e).length s =
        some (t, onlyLast (wireFrame header p c e).length (.error .endByteError)) ∧
      AtRest t ∧ t.pending = rest

/-- R84 (c): a declared length over the capacity gives exactly one `MemoryError`, at the last length
byte (decision D2 of the spec), and the decoder then decodes the well-formed frame that follows
immediately.
(`AtRest`: the empty buffer is the model's choice after R44, log 3). -/
def Obligations.OverlongLengthGivesOneMemoryError : Prop :=
  ∀ (s : State) (header : List Byte) (times : List Nat) (rest : List Stimulus),
    s.stage = .awaitStart →
    ((∃ n : Byte, header = [0x02, n] ∧ s.cfg.maxCapacity.toNat < n.toNat) ∨
      (∃ hi lo : Byte, header = [0x03, hi, lo] ∧
        s.cfg.maxCapacity.toNat < 256 * hi.toNat + lo.toNat)) →
    times.length = header.length → FrameInTime s.cfg s.lastActivityTime times →
    s.pending = rxStream header times ++ rest →
    ∃ t, runEvents header.length s = some (t, onlyLast header.length (.error .memoryError)) ∧
      AtRest t ∧ t.pending = rest ∧
      ∀ (q : List Byte) (later : List Nat) (rest' : List Stimulus),
        q.length ≤ t.cfg.maxCapacity.toNat → later.length = (encodeFrame q).length →
        FrameInTime t.cfg t.lastActivityTime later →
        rest = rxStream (encodeFrame q) later ++ rest' →
        ∃ u, runEvents (encodeFrame q).length t =
          some (u, onlyLast (encodeFrame q).length (.completed q))

/-- R58: a long-form frame is accepted whatever its length, also below 256.
(`AtRest`: the empty buffer is the model's choice after R44, log 3). -/
def Obligations.LongFormIsAcceptedForEveryLength : Prop :=
  ∀ (s : State) (p : List Byte) (times : List Nat) (rest : List Stimulus),
    s.stage = .awaitStart → p.length ≤ s.cfg.maxCapacity.toNat →
    times.length = p.length + 6 → FrameInTime s.cfg s.lastActivityTime times →
    s.pending = rxStream (wireFrame (longHeader p) p (crc16 p) 0x03) times ++ rest →
    ∃ t, runEvents (p.length + 6) s = some (t, onlyLast (p.length + 6) (.completed p)) ∧
      AtRest t ∧ t.pending = rest

/-- R77: the complete next-stage function of a byte-step, with the event; when the timeout expires, the
byte is read in `AwaitStart`. And every stage goes to `AwaitStart` on `D.RESET`. Four of its clauses rest
on choices of the spec: the capacity test and the zero length in the last length byte's step (D2, D3;
log 6), the strict timeout test (D4; log 7), the late byte read in `AwaitStart` (D6; log 8). -/
def Obligations.NextStageTable : Prop :=
  (∀ s t b now rest, CodecInv s → s.pending = .rxByte b now :: rest → step s = .next t →
    let expired := s.cfg.timeoutEn = true ∧ s.stage ≠ .awaitStart ∧
      s.cfg.timeoutInterval < now - s.lastActivityTime
    let start := if b = 0x02 then Stage.lenShort else if b = 0x03 then .lenHi else .awaitStart
    let entered (n : Nat) := if s.cfg.maxCapacity.toNat < n then (Stage.awaitStart, Event.error .memoryError)
      else if n = 0 then (.crcHi, .noEvent) else (.payload, .noEvent)
    (expired → t.stage = start ∧ t.event = .error .receiveTimeout) ∧
    (¬ expired →
      match s.stage with
      | .awaitStart => t.stage = start ∧ t.event = .noEvent
      | .lenShort => (t.stage, t.event) = entered b.toNat
      | .lenHi => t.stage = .lenLo ∧ t.event = .noEvent
      | .lenLo => (t.stage, t.event) = entered (s.targetLength.toNat + b.toNat)
      | .payload =>
        t.stage = (if s.bytesConsumed.toNat + 1 = s.targetLength.toNat then .crcHi else .payload) ∧
          t.event = .noEvent
      | .crcHi => t.stage = .crcLo ∧ t.event = .noEvent
      | .crcLo => t.stage = .awaitEnd ∧ t.event = .noEvent
      | .awaitEnd => t.stage = .awaitStart ∧
          if b = 0x03 then ∃ p, readPayload s = .ok p ∧
            t.event = (if crc16 p = s.crcAccumulator then .completed p else .error .crcError)
          else t.event = .error .endByteError)) ∧
  (∀ s rest, s.pending = .softReset :: rest → ∃ t, step s = .next t ∧ t.stage = .awaitStart)

/-- R124 (1), R122 (b): when the prologue raises, `ReceiveTimeout` alone is reported, whatever error
the late byte would have caused, and that byte is interpreted in `AwaitStart` (decision D6 of the
spec; log 8). The registers cleared are R116 (D8; log 22); that the buffer then holds no byte is the
model's choice after R44 (log 3). -/
def Obligations.TimeoutComesBeforeEveryOtherError : Prop :=
  ∀ s b now rest, s.pending = .rxByte b now :: rest → s.lastActivityTime ≤ now →
    exceededWidth s.cfg now = none → s.cfg.timeoutEn = true → s.stage ≠ .awaitStart →
    s.cfg.timeoutInterval < now - s.lastActivityTime →
    ∃ t, step s = .next t ∧ t.event = .error .receiveTimeout ∧
      t.stage = (if b = 0x02 then .lenShort else if b = 0x03 then .lenHi else .awaitStart) ∧
      t.targetLength = 0 ∧ t.bytesConsumed = 0 ∧ t.crcAccumulator = 0 ∧ t.pb = [] ∧
      t.lastActivityTime = now ∧ t.pending = rest

/-- R79, R116, R73: an error other than the timeout, and a completed payload, leave the decoder in its
initial state, `lastActivityTime` apart (that this is the registers, not only the stage, is decision D8
of the spec; log 22). That the buffer holds no byte is the model's choice after R44 (log 3). -/
def Obligations.TerminalEventsLeaveTheInitialState : Prop :=
  ∀ s t b now rest, s.pending = .rxByte b now :: rest → step s = .next t →
    t.event ≠ .noEvent → t.event ≠ .error .receiveTimeout → AtRest t ∧ t.lastActivityTime = now

/-- R82: payload and checksum bytes are not scanned: with no timeout, two different bytes in the same
place lead to the same stage and registers, no event, and the same count. -/
def Obligations.PayloadAndChecksumBytesAreNotScanned : Prop :=
  ∀ s b b' now rest, CodecInv s → s.stage = .payload ∨ s.stage = .crcHi ∨ s.stage = .crcLo →
    s.lastActivityTime ≤ now → exceededWidth s.cfg now = none →
    (s.cfg.timeoutEn = true → now - s.lastActivityTime ≤ s.cfg.timeoutInterval) →
    ∃ t t', step { s with pending := .rxByte b now :: rest } = .next t ∧
      step { s with pending := .rxByte b' now :: rest } = .next t' ∧
      t.event = .noEvent ∧ t'.event = .noEvent ∧
      t' = { t with pb := t'.pb, crcAccumulator := t'.crcAccumulator }

/-- R86: with the timeout disabled "the `now` values do not matter and the events depend on the bytes
alone". -/
def Obligations.EventsDependOnTheBytesAlone : Prop :=
  ∀ (s u : State) (bytes : List Byte) (times times' : List Nat) (es : List Event),
    s.cfg.timeoutEn = false → times.length = bytes.length → times'.length = bytes.length →
    NeverDecreasing s.cfg s.lastActivityTime times' →
    runEvents bytes.length { s with pending := rxStream bytes times } = some (u, es) →
    ∃ u', runEvents bytes.length { s with pending := rxStream bytes times' } = some (u', es) ∧
      u' = { u with lastActivityTime := u'.lastActivityTime }

/-- R130: in `AwaitStart` the last sample is not read: states that differ in it only (as after the
three ways to the initial state) answer every byte alike. -/
def Obligations.LastSampleIsNotReadAtRest : Prop :=
  ∀ (s : State) (b : Byte) (now before : Nat) (rest : List Stimulus), s.stage = .awaitStart →
    s.lastActivityTime ≤ now → before ≤ now → exceededWidth s.cfg now = none → s.pending = .rxByte b now :: rest →
    (∃ t, step s = .next t) ∧ step { s with lastActivityTime := before } = step s

/-- R122 (a), R140: only a received byte or a reset moves the decoder. That the output event of the last
decoder step stays latched through such a step is the model's choice (log 20). -/
def Obligations.SilenceIsNotDetected : Prop :=
  ∀ s t, (∀ b now rest, s.pending ≠ .rxByte b now :: rest) →
    (∀ rest, s.pending ≠ .softReset :: rest) → (∀ rest, s.pending ≠ .hardReset :: rest) →
    step s = .next t →
    t.stage = s.stage ∧ t.targetLength = s.targetLength ∧ t.bytesConsumed = s.bytesConsumed ∧
      t.crcAccumulator = s.crcAccumulator ∧ t.pb = s.pb ∧
      t.lastActivityTime = s.lastActivityTime ∧ t.event = s.event

/-- R6: "They are constant for the life of a decoder instance: no operation of the block writes
them." -/
def Obligations.ConfigurationIsConstant : Prop := ∀ s t, step s = .next t → t.cfg = s.cfg

/-- The payload buffer keeps its canonical form under every step, from every state. -/
def Obligations.BufferStaysCanonical : Prop := ∀ s t, s.pb.wf → step s = .next t → t.pb.wf

/-- An access where there is no byte stops (R36, R44; log 3 and log 18, the model's choice of how). -/
def Obligations.AccessesOutsideTheBufferStop : Prop :=
  (∀ s b, s.cfg.maxCapacity ≤ s.bytesConsumed →
    exec (.dPayload b) s = .fault (.bufferOutOfRange s.bytesConsumed.toNat)) ∧
  (∀ s, s.pb = [] → s.targetLength ≠ 0 → s.cfg.maxCapacity ≠ 0 →
    exec .dEndOk s = .fault (.bufferUnwritten 0)) ∧
  (∀ s, s.txp.length ≤ s.eidx.toNat →
    exec .ePayload s = .fault (.payloadSourceOutOfRange s.eidx.toNat))

/-! ### Reset, idling, the environment -/

/-- R129, R27: hardware reset, from every state; the configuration and the environment are not reset.
The zeros are decision D9 of the spec; that the buffer then holds no byte (log 3), and what the
environment and the model's own `crcOut` keep (log 19), is the model's choice. -/
def Obligations.HardwareReset : Prop :=
  (∀ s rest, s.pending = .hardReset :: rest → ∃ t, step s = .next t ∧ AtRest t ∧
    t.lastActivityTime = 0 ∧ t.event = .noEvent ∧ t.estage = .eIdle ∧ t.txp = [] ∧ t.cfg = s.cfg ∧
    t.handler = s.handler ∧ t.observer = s.observer ∧ t.handlerCalls = s.handlerCalls ∧
    t.observerCalls = s.observerCalls ∧ t.sink = s.sink ∧ t.crcOut = s.crcOut ∧
    t.pending = rest) ∧
  (∀ cfg, AtRest (State.resetWith cfg) ∧ (State.resetWith cfg).lastActivityTime = 0 ∧
    (State.resetWith cfg).event = .noEvent ∧ (State.resetWith cfg).estage = .eIdle ∧
    (State.resetWith cfg).cfg = cfg ∧ (State.resetWith cfg).handler = none ∧
    (State.resetWith cfg).observer = none)

/-- R128: with no input and no emission in progress "the block is simply idle and keeps all its
state". -/
def Obligations.IdleStepChangesNothing : Prop :=
  ∀ s, s.pending = [] → s.estage = .eIdle → step s = .next s

/-- R110: registration is last-write-wins, and touches nothing else. -/
def Obligations.RegistrationIsLastWriteWins : Prop :=
  (∀ s h rest, s.pending = .registerHandler h :: rest →
    step s = .next { s with handler := some h, pending := rest }) ∧
  (∀ s o rest, s.pending = .registerObserver o :: rest →
    step s = .next { s with observer := some o, pending := rest })

/-- R109, R112: the handler is called with the identifier, the body and its length; without a handler,
or if it rejects, `UnhandledMessage` is reported; an empty payload is refused. The answer is a free
value (log 11). -/
def Obligations.DispatchCallsTheHandler : Prop :=
  (∀ s id body, s.handler = none → s.observer = none →
    exec (.dispatch (id :: body)) s = .next s) ∧
  (∀ s id body o, s.handler = none → s.observer = some o →
    exec (.dispatch (id :: body)) s =
      .next { s with observerCalls := s.observerCalls ++ [⟨o, .unhandledMessage⟩] }) ∧
  (∀ s id body h, s.handler = some h →
    exec (.dispatch (id :: body)) s =
      .next { s with
        handlerCalls := s.handlerCalls ++ [⟨h, id, body, body.length⟩]
        observerCalls :=
          if Config.handlerAccepts s.handlerCalls.length h id body body.length then s.observerCalls
          else match s.observer with
            | some o => s.observerCalls ++ [⟨o, .unhandledMessage⟩]
            | none => s.observerCalls }) ∧
  (∀ s, exec (.dispatch []) s = .refused .emptyDispatch)

/-- R113: the registered observer is called with the kind and nothing else; without one the error is
dropped. -/
def Obligations.ReportCallsTheObserver : Prop :=
  (∀ s k, s.observer = none → exec (.report k) s = .next s) ∧
  (∀ s k o, s.observer = some o →
    exec (.report k) s = .next { s with observerCalls := s.observerCalls ++ [⟨o, k⟩] })

/-- R109, R116, R127: inside the byte-step that produced it, an error is reported exactly once, a
payload of at least one byte is handed to the handler exactly once, after which `UnhandledMessage` is
reported exactly once if there is no handler or it rejects, and not at all if it accepts; nothing is
called without an event. The handler's answer is a free value (log 11). An empty payload is not
dispatched (R112; log 12, the model's choice). -/
def Obligations.EveryEventIsHandledOnceInItsStep : Prop :=
  ∀ s t b now rest, s.pending = .rxByte b now :: rest → step s = .next t →
    t.handler = s.handler ∧ t.observer = s.observer ∧
    (∀ k, t.event = .error k → t.handlerCalls = s.handlerCalls ∧
      t.observerCalls = s.observerCalls ++ (s.observer.map fun o => ⟨o, k⟩).toList) ∧
    (∀ id body, t.event = .completed (id :: body) →
      t.handlerCalls =
        s.handlerCalls ++ (s.handler.map fun h => ⟨h, id, body, body.length⟩).toList ∧
      t.observerCalls =
        match s.handler with
        | none => s.observerCalls ++ (s.observer.map fun o => ⟨o, .unhandledMessage⟩).toList
        | some h =>
          if Config.handlerAccepts s.handlerCalls.length h id body body.length then s.observerCalls
          else s.observerCalls ++ (s.observer.map fun o => ⟨o, .unhandledMessage⟩).toList) ∧
    (t.event = .noEvent ∨ t.event = .completed [] →
      t.handlerCalls = s.handlerCalls ∧ t.observerCalls = s.observerCalls)

/-- R111: `UnhandledMessage` is never an event of the block, and dispatching does not touch the
decoder's state (nor the encoder's). -/
def Obligations.UnhandledMessageIsNotTheBlocks : Prop :=
  (∀ s t, s.event ≠ .error .unhandledMessage → step s = .next t →
    t.event ≠ .error .unhandledMessage) ∧
  (∀ s t p, exec (.dispatch p) s = .next t →
    t = { s with handlerCalls := t.handlerCalls, observerCalls := t.observerCalls })

/-! ### The encoder -/

/-- R90, R91, R92, R93: the start delimiter and the length. -/
def Obligations.HeaderEmissionSteps : Prop :=
  (decode (.tx .eStart) = .ok .eStart ∧ decode (.tx .eLenShort) = .ok .eLenShort ∧
    decode (.tx .eLenHi) = .ok .eLenHi ∧ decode (.tx .eLenLo) = .ok .eLenLo) ∧
  ∀ s : State,
    (s.elen.toNat < 256 →
      exec .eStart s = .next { s with sink := s.sink ++ [0x02], estage := .eLenShort }) ∧
    (256 ≤ s.elen.toNat →
      exec .eStart s = .next { s with sink := s.sink ++ [0x03], estage := .eLenHi }) ∧
    (∃ v : Byte, v.toNat = s.elen.toNat % 256 ∧
      exec .eLenShort s =
        .next { s with
          sink := s.sink ++ [v], estage := if s.elen = 0 then .eCrcHi else .ePayload }) ∧
    (∃ v : Byte, v.toNat = s.elen.toNat / 256 ∧ (256 ≤ s.elen.toNat → 1 ≤ v.toNat) ∧
      exec .eLenHi s = .next { s with sink := s.sink ++ [v], estage := .eLenLo }) ∧
    (∃ v : Byte, v.toNat = s.elen.toNat % 256 ∧
      exec .eLenLo s = .next { s with sink := s.sink ++ [v], estage := .ePayload })

/-- R94: the next payload byte is pushed unchanged. -/
def Obligations.PayloadEmissionStep : Prop :=
  decode (.tx .ePayload) = .ok .ePayload ∧
  ∀ (s : State) (v : Byte), s.txp[s.eidx.toNat]? = some v → s.eidx < s.elen →
    ∃ n : Half, n.toNat = s.eidx.toNat + 1 ∧
      exec .ePayload s =
        .next { s with
          sink := s.sink ++ [v], eidx := n, estage := if n = s.elen then .eCrcHi else .ePayload }

/-- R95, R96, R97: the checksum high byte first, then the end delimiter; after it the encoder is idle
and holds no trace of the payload. What the three registers then hold is free (U20, log 4). -/
def Obligations.TrailerEmissionSteps : Prop :=
  (decode (.tx .eCrcHi) = .ok .eCrcHi ∧ decode (.tx .eCrcLo) = .ok .eCrcLo ∧
    decode (.tx .eEnd) = .ok .eEnd) ∧
  ∀ s : State,
    (∃ v : Byte, v.toNat = s.ecrc.toNat / 256 ∧
      exec .eCrcHi s = .next { s with sink := s.sink ++ [v], estage := .eCrcLo }) ∧
    (∃ v : Byte, v.toNat = s.ecrc.toNat % 256 ∧
      exec .eCrcLo s = .next { s with sink := s.sink ++ [v], estage := .eEnd }) ∧
    (∃ t, exec .eEnd s = .next t ∧ t.sink = s.sink ++ [0x03] ∧ t.estage = .eIdle ∧ t.txp = [] ∧
      t = { s with
        sink := t.sink, estage := t.estage, txp := t.txp, elen := t.elen, eidx := t.eidx
        ecrc := t.ecrc, encDraws := t.encDraws })

/-- An ENCODE request accepted in `EIdle` starts the sequencer (41_encoder.md, before R90); the
sequencer is decision D15 of the spec. -/
def Obligations.RequestStartsTheSequencer : Prop :=
  ∀ s p rest, s.pending = .encodeRequest p :: rest → p.length ≤ 65535 → s.estage = .eIdle →
    ∃ n : Half, n.toNat = p.length ∧
      step s = .next { s with
        pending := rest, txp := p, elen := n, eidx := 0, ecrc := crc16 p, estage := .eStart }

/-- R88: the bytes one ENCODE pushes, with nothing before, between or after; nothing but the encoder's
own registers changes. -/
def Obligations.EncodePushesTheFrame : Prop :=
  ∀ (s : State) (p : List Byte), p.length ≤ 65535 → s.estage = .eIdle →
    ∃ t, exec (.encode p) s = .next t ∧
      (p.length < 256 → t.sink = s.sink ++
        ([0x02, BitVec.ofNat 8 p.length] ++ p ++
          [BitVec.ofNat 8 ((crc16 p).toNat / 256), BitVec.ofNat 8 (crc16 p).toNat, 0x03])) ∧
      (256 ≤ p.length → t.sink = s.sink ++
        ([0x03, BitVec.ofNat 8 (p.length / 256), BitVec.ofNat 8 p.length] ++ p ++
          [BitVec.ofNat 8 ((crc16 p).toNat / 256), BitVec.ofNat 8 (crc16 p).toNat, 0x03])) ∧
      t.estage = .eIdle ∧
      t = { s with
        sink := t.sink, txp := t.txp, elen := t.elen, eidx := t.eidx, ecrc := t.ecrc
        encDraws := t.encDraws }

/-- R98, R99: a payload over 65535 bytes is refused, never truncated; a request while the encoder is
emitting is refused (decisions D14 and D15 of the spec). -/
def Obligations.EncodeRefusesLongPayloadsAndBusyRequests : Prop :=
  ∀ (s : State) (p : List Byte) (rest : List Stimulus),
    (65535 < p.length → exec (.encode p) s = .refused (.payloadTooLong p.length) ∧
      (s.pending = .encodeRequest p :: rest → step s = .refused (.payloadTooLong p.length))) ∧
    (p.length ≤ 65535 → s.estage ≠ .eIdle → exec (.encode p) s = .refused .encoderBusy ∧
      (s.pending = .encodeRequest p :: rest → step s = .refused .encoderBusy))

/-- R55, R88: an accepted request followed by its emission steps, one per byte of the frame, is the
whole operation ENCODE: the same next state. -/
def Obligations.EmissionStepsMakeUpEncode : Prop :=
  ∀ (s : State) (p : List Byte), p.length ≤ 65535 → s.estage = .eIdle →
    runSteps ((encodeFrame p).length + 1) { s with pending := [.encodeRequest p] } =
      exec (.encode p) { s with pending := [] } ∧
    ∃ t, exec (.encode p) { s with pending := [] } = .next t

/-- R60: each emission step pushes exactly one byte, which meets the table's test for its row, and
changes nothing of the decoder, the configuration or the environment. -/
def Obligations.EmissionStepsPushOneTableByte : Prop :=
  ∀ (i : Instr) (e : EStage) (s t : State), encode i = .tx e → exec i s = .next t →
    (∃ v, t.sink = s.sink ++ [v] ∧ (i = .eStart → v &&& 0xFE = 0x02) ∧ (i = .eEnd → v = 0x03)) ∧
    t = { s with
      sink := t.sink, estage := t.estage, elen := t.elen, eidx := t.eidx, ecrc := t.ecrc
      txp := t.txp, encDraws := t.encDraws }

/-- R100: length, form and delimiters of the output, and that different payloads give different
frames. -/
def Obligations.EncodedFramesAreCanonicalAndDistinct : Prop :=
  (∀ p : List Byte, p.length ≤ 65535 →
    (encodeFrame p).head? = some (if p.length < 256 then 0x02 else 0x03) ∧
    (encodeFrame p).getLast? = some 0x03 ∧
    (encodeFrame p).length = p.length + (if p.length < 256 then 5 else 6)) ∧
  (∀ p q : List Byte, p.length ≤ 65535 → q.length ≤ 65535 → encodeFrame p = encodeFrame q → p = q)

/-! ### Decoder and encoder side by side -/

/-- R41: "they touch disjoint state": a decoder operation leaves the encoder, the sink, the
configuration and the environment as they are. (For an emission step,
`EmissionStepsPushOneTableByte` says the converse.) -/
def Obligations.DecoderOperationsLeaveTheEncoder : Prop :=
  ∀ (i : Instr) (s t : State),
    ((∃ st b, encode i = .rx st b) ∨ encode i = .softReset ∨ ∃ now, encode i = .timeSample now) →
    exec i s = .next t →
    t = { s with
      stage := t.stage, targetLength := t.targetLength, bytesConsumed := t.bytesConsumed
      crcAccumulator := t.crcAccumulator, pb := t.pb, lastActivityTime := t.lastActivityTime
      event := t.event }

/-- R41, R10: a decoder operation and an encoder operation commute: "no execution of one can change
what the other observes". -/
def Obligations.DecoderAndEncoderOperationsCommute : Prop :=
  ∀ (i j : Instr) (s s1 s2 : State),
    ((∃ st b, encode i = .rx st b) ∨ encode i = .softReset ∨ ∃ now, encode i = .timeSample now) →
    ((∃ e, encode j = .tx e) ∨ ∃ p, j = .encode p) →
    exec i s = .next s1 → exec j s = .next s2 →
    ∃ t, exec j s1 = .next t ∧ exec i s2 = .next t

/-! ### The checksum unit -/

/-- R102 to R105: what a call of the checksum service returns, and that it changes nothing else. The
place of the value (`crcOut`) is the model's (log 10), and the function itself is general knowledge in
the spec (log 9). -/
def Obligations.ChecksumServiceReturnsItsValue : Prop :=
  ∀ (s : State) (r : Half) (v : Byte) (p : List Byte),
    exec .crcInit s = .next { s with crcOut := 0x0000 } ∧
    exec (.crcFinal r) s = .next { s with crcOut := r } ∧
    (∃ c, exec (.crcByte r v) s = .next { s with crcOut := c } ∧
      c = crcRounds 8 (r ^^^ (v.setWidth 16 <<< 8))) ∧
    (∃ c, exec (.crc16 p) s = .next { s with crcOut := c } ∧ c = p.foldl crcByte 0x0000)

/-- R106: reference values of the checksum (computed by the spec; log 9). -/
def Obligations.ChecksumReferenceValues : Prop :=
  crc16 [] = 0x0000 ∧ crc16 [0x01] = 0x1021 ∧ crc16 [0x80] = 0x9188 ∧ crc16 [0xFF] = 0x1EF0 ∧
  crc16 [0xFF, 0xFF] = 0x1D0F ∧ crc16 [0x01, 0x02, 0x03] = 0x6131 ∧
  crc16 [0x31, 0x32, 0x33, 0x34, 0x35, 0x36, 0x37, 0x38, 0x39] = 0x31C3

/-- R107: a checksum can be computed in parts. -/
def Obligations.ChecksumIsIncremental : Prop :=
  ∀ (p q : List Byte), crc16 (p ++ q) = q.foldl crcByte (crc16 p)

/-- R103: "leading zero bytes do not change the register"; and the last row of R106 for every payload:
a payload followed by its own checksum has the checksum 0, which R108 leaves to be proved from R102 to
R105. Both rest on the particular function, which is general knowledge in the spec (log 9, PRESUMED). -/
def Obligations.ChecksumZerosAndResidue : Prop :=
  (∀ (n : Nat) (p : List Byte), crc16 (List.replicate n 0x00 ++ p) = crc16 p) ∧
  (∀ p : List Byte, crc16 (p ++ [hiOf (crc16 p), loOf (crc16 p)]) = 0x0000)

/-! ### The width of time -/

/-- R121, R26: with `TIME_WIDTH` given, a sample of more bits, where a counter of that width has wrapped
around, is refused, by the prologue and by a step that carries it; reading R121's wrap-around so is the
model's (decision D7 of the spec; log 5). With time unbounded no sample is refused for its size, and a
sample that fits runs. -/
def Obligations.WrappedTimeIsRefused : Prop :=
  (∀ (s : State) (now w : Nat), s.lastActivityTime ≤ now → s.cfg.timeWidth = some w → 2 ^ w ≤ now →
    exec (.dTimeoutPrologue now) s = .refused (.timeWrapped now w)) ∧
  (∀ s b now rest w, s.pending = .rxByte b now :: rest → s.lastActivityTime ≤ now →
    s.cfg.timeWidth = some w → 2 ^ w ≤ now → step s = .refused (.timeWrapped now w)) ∧
  (∀ (s : State) (now : Nat), s.lastActivityTime ≤ now → s.cfg.timeWidth = none →
    ∃ t, exec (.dTimeoutPrologue now) s = .next t ∧ t.lastActivityTime = now) ∧
  (∀ (s : State) (now w : Nat), s.lastActivityTime ≤ now → s.cfg.timeWidth = some w → now < 2 ^ w →
    ∃ t, exec (.dTimeoutPrologue now) s = .next t ∧ t.lastActivityTime = now)
end

