-- ==== Sys2Proof/Laws/Decode.lean ====
section
/-! SUPPORT. What the operation map answers in each stage, said once. -/

namespace Sys2Proof

/-- A row whose mask is `0xFF` accepts its match only. -/
@[simp] theorem and_full_mask (b : Byte) : b &&& 255#8 = b := by
  have : (255#8 : Byte) = BitVec.allOnes 8 := by decide
  rw [this, BitVec.and_allOnes]

theorem decodeRx_awaitStart (b : Byte) :
    decodeRx .awaitStart b =
      .ok (if b = 0x02 then .dStartShort else if b = 0x03 then .dStartLong else .dNoise b) := by
  by_cases h2 : b = 2#8
  · subst h2; rfl
  · by_cases h3 : b = 3#8
    · subst h3; rfl
    · simp [decodeRx, rxRows, RxRow.selects, List.find?, h2, h3]

theorem decodeRx_awaitEnd (b : Byte) :
    decodeRx .awaitEnd b = .ok (if b = 0x03 then .dEndOk else .dEndBad b) := by
  by_cases h3 : b = 3#8
  · subst h3; rfl
  · simp [decodeRx, rxRows, RxRow.selects, List.find?, h3]

theorem decodeRx_lenShort (b : Byte) : decodeRx .lenShort b = .ok (.dLenShort b) := by
  simp [decodeRx, rxRows, RxRow.selects, List.find?]

theorem decodeRx_lenHi (b : Byte) : decodeRx .lenHi b = .ok (.dLenHi b) := by
  simp [decodeRx, rxRows, RxRow.selects, List.find?]

theorem decodeRx_lenLo (b : Byte) : decodeRx .lenLo b = .ok (.dLenLo b) := by
  simp [decodeRx, rxRows, RxRow.selects, List.find?]

theorem decodeRx_payload (b : Byte) : decodeRx .payload b = .ok (.dPayload b) := by
  simp [decodeRx, rxRows, RxRow.selects, List.find?]

theorem decodeRx_crcHi (b : Byte) : decodeRx .crcHi b = .ok (.dCrcHi b) := by
  simp [decodeRx, rxRows, RxRow.selects, List.find?]

theorem decodeRx_crcLo (b : Byte) : decodeRx .crcLo b = .ok (.dCrcLo b) := by
  simp [decodeRx, rxRows, RxRow.selects, List.find?]

end Sys2Proof
end

