-- ==== Sys2Proof/Laws/Memory.lean ====
section
/-! SUPPORT. The laws of the payload buffer: read after write, the canonical form, and reading a range. -/

namespace Sys2Proof.Machine

theorem Memory.wf_nil : Memory.wf [] := List.Pairwise.nil

/-- The indices of a buffer after a write: those before, and the written one. -/
theorem Memory.mem_keys_write {m : Memory} {a : Nat} {v : Byte} {k : Nat} :
    k ∈ (m.write a v).map Prod.fst ↔ k = a ∨ k ∈ m.map Prod.fst := by
  induction m with
  | nil => simp [Memory.write]
  | cons c m ih =>
    obtain ⟨j, w⟩ := c
    simp only [Memory.write]
    split
    · simp
    · split
      · rename_i h; subst h; simp
      · rw [List.map_cons, List.mem_cons, ih, List.map_cons, List.mem_cons]; tauto

/-- A write keeps the canonical form. -/
theorem Memory.wf_write {m : Memory} (h : m.wf) (a : Nat) (v : Byte) : (m.write a v).wf := by
  induction m with
  | nil => simp [Memory.write, Memory.wf]
  | cons c m ih =>
    obtain ⟨j, w⟩ := c
    rw [Memory.wf, List.map_cons, List.pairwise_cons] at h
    simp only [Memory.write]
    split
    · rename_i hlt
      rw [Memory.wf, List.map_cons, List.map_cons, List.pairwise_cons, List.pairwise_cons]
      refine ⟨fun k hk => ?_, h⟩
      rcases List.mem_cons.1 hk with rfl | hk
      · exact hlt
      · exact hlt.trans (h.1 k hk)
    · split
      · rename_i hlt heq
        subst heq
        rw [Memory.wf, List.map_cons, List.pairwise_cons]
        exact h
      · rename_i hlt hne
        rw [Memory.wf, List.map_cons, List.pairwise_cons]
        refine ⟨fun k hk => ?_, ih h.2⟩
        rcases Memory.mem_keys_write.1 hk with rfl | hk
        · show j < k
          omega
        · exact h.1 k hk

/-- Reading the index just written gives the byte written. -/
@[simp] theorem Memory.read_write_same (m : Memory) (a : Nat) (v : Byte) :
    (m.write a v).read a = some v := by
  induction m with
  | nil => simp [Memory.write, Memory.read]
  | cons c m ih =>
    obtain ⟨j, w⟩ := c
    simp only [Memory.write]
    split
    · simp [Memory.read]
    · split
      · simp [Memory.read]
      · rename_i h1 h2
        simp [Memory.read, Ne.symm h2, ih]

/-- A write leaves every other index as it was. -/
theorem Memory.read_write_other (m : Memory) {a b : Nat} (v : Byte) (h : b ≠ a) :
    (m.write a v).read b = m.read b := by
  induction m with
  | nil => simp [Memory.write, Memory.read, Ne.symm h]
  | cons c m ih =>
    obtain ⟨j, w⟩ := c
    simp only [Memory.write]
    split
    · simp [Memory.read, Ne.symm h]
    · split
      · rename_i h1 h2
        subst h2
        simp [Memory.read, Ne.symm h]
      · simp [Memory.read, ih]

/-- A write above every listed index appends. -/
theorem Memory.write_above {m : Memory} {a : Nat} (v : Byte) (h : ∀ k ∈ m.map Prod.fst, k < a) :
    m.write a v = m ++ [(a, v)] := by
  induction m with
  | nil => rfl
  | cons c m ih =>
    obtain ⟨j, w⟩ := c
    have hj : j < a := h j (by simp)
    have hm := ih fun k hk => h k (by simp only [List.map_cons, List.mem_cons]; exact .inr hk)
    simp [Memory.write, hm, Nat.not_lt.2 hj.le, Nat.ne_of_gt hj]

/-- Exactly the listed indices hold a byte. -/
theorem Memory.read_isSome (m : Memory) (a : Nat) :
    (m.read a).isSome = true ↔ a ∈ m.map Prod.fst := by
  induction m with
  | nil => simp [Memory.read]
  | cons c m ih =>
    obtain ⟨j, w⟩ := c
    by_cases h : j = a
    · simp [Memory.read, h]
    · rw [Memory.read, if_neg h, ih, List.map_cons, List.mem_cons]
      exact ⟨.inr, fun h' => h'.resolve_left (Ne.symm h)⟩

/-- `MemRead` answers a byte exactly where the buffer holds one inside its capacity. -/
theorem memRead_ok_iff {s : State} {a : Nat} {v : Byte} :
    memRead s a = .ok v ↔ a < s.cfg.maxCapacity.toNat ∧ s.pb.read a = some v := by
  unfold memRead
  split
  · rename_i h
    cases hr : s.pb.read a <;> simp [h]
  · rename_i h
    simp [h]

/-- Everything a `MemWrite` that goes on can do. -/
theorem memWrite_next_iff {s t : State} {a : Nat} {v : Byte} :
    memWrite s a v = .next t ↔ a < s.cfg.maxCapacity.toNat ∧ t = { s with pb := s.pb.write a v } := by
  unfold memWrite
  split
  · rename_i h; simp [h, eq_comm]
  · rename_i h; simp [h]

/-- Reading a range gives the bytes the buffer holds there, if it holds them all. -/
theorem readRange_eq_ok {s : State} {p : List Byte} {a : Nat}
    (hcap : a + p.length ≤ s.cfg.maxCapacity.toNat)
    (h : ∀ i, i < p.length → s.pb.read (a + i) = p[i]?) :
    readRange s a p.length = .ok p := by
  induction p generalizing a with
  | nil => rfl
  | cons v p ih =>
    have hv : memRead s a = .ok v :=
      memRead_ok_iff.2 ⟨by rw [List.length_cons] at hcap; omega, by simpa using h 0 (by simp)⟩
    have hp : readRange s (a + 1) p.length = .ok p := by
      refine ih (by rw [List.length_cons] at hcap; omega) fun i hi => ?_
      have := h (i + 1) (by rw [List.length_cons]; omega)
      rw [show a + 1 + i = a + (i + 1) by omega, this, List.getElem?_cons_succ]
    simp [readRange, hv, hp]

/-- Reading a range whose indices all hold a byte answers as many bytes. -/
theorem readRange_total {s : State} {a n : Nat} (hcap : a + n ≤ s.cfg.maxCapacity.toNat)
    (h : ∀ i, i < n → a + i ∈ s.pb.map Prod.fst) :
    ∃ p, readRange s a n = .ok p ∧ p.length = n := by
  induction n generalizing a with
  | zero => exact ⟨[], rfl, rfl⟩
  | succ n ih =>
    have h0 : (s.pb.read a).isSome = true := (s.pb.read_isSome a).2 (by simpa using h 0 (by omega))
    obtain ⟨v, hv⟩ := Option.isSome_iff_exists.1 h0
    obtain ⟨p, hp, hl⟩ := ih (a := a + 1) (by omega) fun i hi => by
      have := h (i + 1) (by omega)
      rwa [show a + 1 + i = a + (i + 1) by omega]
    refine ⟨v :: p, ?_, by simp [hl]⟩
    simp [readRange, memRead_ok_iff.2 ⟨by omega, hv⟩, hp]

end Sys2Proof.Machine
end

