-- ==== Sys2Proof/Laws/Operands.lean ====
section
/-! SUPPORT. The operand forms as numbers (R76), and the laws of the checksum function. -/

namespace Sys2Proof.Machine

@[simp] theorem toNat_zext16 (v : Byte) : (zext16 v).toNat = v.toNat := by
  simp only [zext16, BitVec.toNat_setWidth]
  have := v.isLt
  omega

@[simp] theorem toNat_highByte (v : Byte) : (highByte v).toNat = 256 * v.toNat := by
  have := v.isLt
  simp only [highByte, BitVec.toNat_shiftLeft, toNat_zext16, Nat.shiftLeft_eq]
  omega

@[simp] theorem toNat_hiOf (v : Half) : (hiOf v).toNat = v.toNat / 256 := by
  have := v.isLt
  simp only [hiOf, BitVec.extractLsb'_toNat, Nat.shiftRight_eq_div_pow]
  omega

@[simp] theorem toNat_loOf (v : Half) : (loOf v).toNat = v.toNat % 256 := by
  simp only [loOf, BitVec.extractLsb'_toNat, Nat.shiftRight_eq_div_pow]
  omega

/-- Joining a byte to a high byte adds it: "`(hi << 8) | lo` = `256*hi + lo`" (R76). -/
theorem toNat_joinLow {r : Half} (h : loOf r = 0) (v : Byte) :
    (joinLow r v).toNat = r.toNat + v.toNat := by
  have hr : r.toNat % 256 = 0 := by
    have := congrArg BitVec.toNat h
    simpa using this
  have hv := v.isLt
  obtain ⟨k, hk⟩ : ∃ k, r.toNat = 2 ^ 8 * k := ⟨r.toNat / 256, by omega⟩
  rw [joinLow, BitVec.toNat_or, toNat_zext16, hk]
  exact (Nat.two_pow_add_eq_or_of_lt (by omega) k).symm

@[simp] theorem loOf_highByte (v : Byte) : loOf (highByte v) = 0 := by
  apply BitVec.eq_of_toNat_eq
  simp

/-- The two bytes of a field, joined again (R48, R50). -/
@[simp] theorem joinLow_bytes (v : Half) : joinLow (highByte (hiOf v)) (loOf v) = v := by
  apply BitVec.eq_of_toNat_eq
  rw [toNat_joinLow (loOf_highByte _)]
  simp only [toNat_highByte, toNat_hiOf, toNat_loOf]
  omega

theorem hiOf_joinLow (hi lo : Byte) : hiOf (joinLow (highByte hi) lo) = hi := by
  apply BitVec.eq_of_toNat_eq
  have := lo.isLt
  rw [toNat_hiOf, toNat_joinLow (loOf_highByte _), toNat_highByte]
  omega

theorem loOf_joinLow (hi lo : Byte) : loOf (joinLow (highByte hi) lo) = lo := by
  apply BitVec.eq_of_toNat_eq
  have := lo.isLt
  rw [toNat_loOf, toNat_joinLow (loOf_highByte _), toNat_highByte]
  omega

theorem toNat_lengthHalf {p : List Byte} (h : p.length ≤ 65535) :
    (lengthHalf p).toNat = p.length := by
  simp only [lengthHalf, BitVec.toNat_ofNat]
  omega

/-- A run of the loop over two sequences is the two runs in turn (R107). -/
theorem crcOver_append (r : Half) (s t : List Byte) :
    crcOver r (s ++ t) = crcOver (crcOver r s) t := by
  induction s generalizing r with
  | nil => rfl
  | cons v s ih => exact ih _

@[simp] theorem crc16_nil : crc16 [] = 0 := rfl

end Sys2Proof.Machine
end

