-- ==== Sys2Proof/Laws/State.lean ====
section
/-! SUPPORT. One lemma per field per named update of State, each true by computation, so that no proof
unfolds a record update; and what the operations on the environment's slots can change. -/

namespace Sys2Proof.Machine

@[simp] theorem clear_stage (s : State) : (clear s).stage = .awaitStart := rfl
@[simp] theorem clear_targetLength (s : State) : (clear s).targetLength = 0 := rfl
@[simp] theorem clear_bytesConsumed (s : State) : (clear s).bytesConsumed = 0 := rfl
@[simp] theorem clear_crcAccumulator (s : State) : (clear s).crcAccumulator = 0 := rfl
@[simp] theorem clear_pb (s : State) : (clear s).pb = [] := rfl
@[simp] theorem clear_lastActivityTime (s : State) :
    (clear s).lastActivityTime = s.lastActivityTime := rfl
@[simp] theorem clear_event (s : State) : (clear s).event = s.event := rfl
@[simp] theorem clear_estage (s : State) : (clear s).estage = s.estage := rfl
@[simp] theorem clear_elen (s : State) : (clear s).elen = s.elen := rfl
@[simp] theorem clear_eidx (s : State) : (clear s).eidx = s.eidx := rfl
@[simp] theorem clear_ecrc (s : State) : (clear s).ecrc = s.ecrc := rfl
@[simp] theorem clear_txp (s : State) : (clear s).txp = s.txp := rfl
@[simp] theorem clear_sink (s : State) : (clear s).sink = s.sink := rfl
@[simp] theorem clear_encDraws (s : State) : (clear s).encDraws = s.encDraws := rfl
@[simp] theorem clear_cfg (s : State) : (clear s).cfg = s.cfg := rfl
@[simp] theorem clear_handler (s : State) : (clear s).handler = s.handler := rfl
@[simp] theorem clear_observer (s : State) : (clear s).observer = s.observer := rfl
@[simp] theorem clear_handlerCalls (s : State) : (clear s).handlerCalls = s.handlerCalls := rfl
@[simp] theorem clear_observerCalls (s : State) : (clear s).observerCalls = s.observerCalls := rfl
@[simp] theorem clear_crcOut (s : State) : (clear s).crcOut = s.crcOut := rfl
@[simp] theorem clear_pending (s : State) : (clear s).pending = s.pending := rfl

@[simp] theorem raiseError_stage (k : ErrorKind) (s : State) :
    (raiseError k s).stage = .awaitStart := rfl
@[simp] theorem raiseError_targetLength (k : ErrorKind) (s : State) :
    (raiseError k s).targetLength = 0 := rfl
@[simp] theorem raiseError_bytesConsumed (k : ErrorKind) (s : State) :
    (raiseError k s).bytesConsumed = 0 := rfl
@[simp] theorem raiseError_crcAccumulator (k : ErrorKind) (s : State) :
    (raiseError k s).crcAccumulator = 0 := rfl
@[simp] theorem raiseError_pb (k : ErrorKind) (s : State) : (raiseError k s).pb = [] := rfl
@[simp] theorem raiseError_lastActivityTime (k : ErrorKind) (s : State) :
    (raiseError k s).lastActivityTime = s.lastActivityTime := rfl
@[simp] theorem raiseError_event (k : ErrorKind) (s : State) :
    (raiseError k s).event = .error k := rfl
@[simp] theorem raiseError_estage (k : ErrorKind) (s : State) :
    (raiseError k s).estage = s.estage := rfl
@[simp] theorem raiseError_elen (k : ErrorKind) (s : State) :
    (raiseError k s).elen = s.elen := rfl
@[simp] theorem raiseError_eidx (k : ErrorKind) (s : State) :
    (raiseError k s).eidx = s.eidx := rfl
@[simp] theorem raiseError_ecrc (k : ErrorKind) (s : State) :
    (raiseError k s).ecrc = s.ecrc := rfl
@[simp] theorem raiseError_txp (k : ErrorKind) (s : State) : (raiseError k s).txp = s.txp := rfl
@[simp] theorem raiseError_sink (k : ErrorKind) (s : State) :
    (raiseError k s).sink = s.sink := rfl
@[simp] theorem raiseError_encDraws (k : ErrorKind) (s : State) :
    (raiseError k s).encDraws = s.encDraws := rfl
@[simp] theorem raiseError_cfg (k : ErrorKind) (s : State) : (raiseError k s).cfg = s.cfg := rfl
@[simp] theorem raiseError_handler (k : ErrorKind) (s : State) :
    (raiseError k s).handler = s.handler := rfl
@[simp] theorem raiseError_observer (k : ErrorKind) (s : State) :
    (raiseError k s).observer = s.observer := rfl
@[simp] theorem raiseError_handlerCalls (k : ErrorKind) (s : State) :
    (raiseError k s).handlerCalls = s.handlerCalls := rfl
@[simp] theorem raiseError_observerCalls (k : ErrorKind) (s : State) :
    (raiseError k s).observerCalls = s.observerCalls := rfl
@[simp] theorem raiseError_crcOut (k : ErrorKind) (s : State) :
    (raiseError k s).crcOut = s.crcOut := rfl
@[simp] theorem raiseError_pending (k : ErrorKind) (s : State) :
    (raiseError k s).pending = s.pending := rfl

@[simp] theorem complete_stage (p : List Byte) (s : State) :
    (complete p s).stage = .awaitStart := rfl
@[simp] theorem complete_targetLength (p : List Byte) (s : State) :
    (complete p s).targetLength = 0 := rfl
@[simp] theorem complete_bytesConsumed (p : List Byte) (s : State) :
    (complete p s).bytesConsumed = 0 := rfl
@[simp] theorem complete_crcAccumulator (p : List Byte) (s : State) :
    (complete p s).crcAccumulator = 0 := rfl
@[simp] theorem complete_pb (p : List Byte) (s : State) : (complete p s).pb = [] := rfl
@[simp] theorem complete_lastActivityTime (p : List Byte) (s : State) :
    (complete p s).lastActivityTime = s.lastActivityTime := rfl
@[simp] theorem complete_event (p : List Byte) (s : State) :
    (complete p s).event = .completed p := rfl
@[simp] theorem complete_estage (p : List Byte) (s : State) :
    (complete p s).estage = s.estage := rfl
@[simp] theorem complete_elen (p : List Byte) (s : State) : (complete p s).elen = s.elen := rfl
@[simp] theorem complete_eidx (p : List Byte) (s : State) : (complete p s).eidx = s.eidx := rfl
@[simp] theorem complete_ecrc (p : List Byte) (s : State) : (complete p s).ecrc = s.ecrc := rfl
@[simp] theorem complete_txp (p : List Byte) (s : State) : (complete p s).txp = s.txp := rfl
@[simp] theorem complete_sink (p : List Byte) (s : State) : (complete p s).sink = s.sink := rfl
@[simp] theorem complete_encDraws (p : List Byte) (s : State) :
    (complete p s).encDraws = s.encDraws := rfl
@[simp] theorem complete_cfg (p : List Byte) (s : State) : (complete p s).cfg = s.cfg := rfl
@[simp] theorem complete_handler (p : List Byte) (s : State) :
    (complete p s).handler = s.handler := rfl
@[simp] theorem complete_observer (p : List Byte) (s : State) :
    (complete p s).observer = s.observer := rfl
@[simp] theorem complete_handlerCalls (p : List Byte) (s : State) :
    (complete p s).handlerCalls = s.handlerCalls := rfl
@[simp] theorem complete_observerCalls (p : List Byte) (s : State) :
    (complete p s).observerCalls = s.observerCalls := rfl
@[simp] theorem complete_crcOut (p : List Byte) (s : State) :
    (complete p s).crcOut = s.crcOut := rfl
@[simp] theorem complete_pending (p : List Byte) (s : State) :
    (complete p s).pending = s.pending := rfl

@[simp] theorem pushSink_stage (v : Byte) (s : State) : (pushSink v s).stage = s.stage := rfl
@[simp] theorem pushSink_targetLength (v : Byte) (s : State) :
    (pushSink v s).targetLength = s.targetLength := rfl
@[simp] theorem pushSink_bytesConsumed (v : Byte) (s : State) :
    (pushSink v s).bytesConsumed = s.bytesConsumed := rfl
@[simp] theorem pushSink_crcAccumulator (v : Byte) (s : State) :
    (pushSink v s).crcAccumulator = s.crcAccumulator := rfl
@[simp] theorem pushSink_pb (v : Byte) (s : State) : (pushSink v s).pb = s.pb := rfl
@[simp] theorem pushSink_lastActivityTime (v : Byte) (s : State) :
    (pushSink v s).lastActivityTime = s.lastActivityTime := rfl
@[simp] theorem pushSink_event (v : Byte) (s : State) : (pushSink v s).event = s.event := rfl
@[simp] theorem pushSink_estage (v : Byte) (s : State) : (pushSink v s).estage = s.estage := rfl
@[simp] theorem pushSink_elen (v : Byte) (s : State) : (pushSink v s).elen = s.elen := rfl
@[simp] theorem pushSink_eidx (v : Byte) (s : State) : (pushSink v s).eidx = s.eidx := rfl
@[simp] theorem pushSink_ecrc (v : Byte) (s : State) : (pushSink v s).ecrc = s.ecrc := rfl
@[simp] theorem pushSink_txp (v : Byte) (s : State) : (pushSink v s).txp = s.txp := rfl
@[simp] theorem pushSink_sink (v : Byte) (s : State) : (pushSink v s).sink = s.sink ++ [v] := rfl
@[simp] theorem pushSink_encDraws (v : Byte) (s : State) :
    (pushSink v s).encDraws = s.encDraws := rfl
@[simp] theorem pushSink_cfg (v : Byte) (s : State) : (pushSink v s).cfg = s.cfg := rfl
@[simp] theorem pushSink_handler (v : Byte) (s : State) :
    (pushSink v s).handler = s.handler := rfl
@[simp] theorem pushSink_observer (v : Byte) (s : State) :
    (pushSink v s).observer = s.observer := rfl
@[simp] theorem pushSink_handlerCalls (v : Byte) (s : State) :
    (pushSink v s).handlerCalls = s.handlerCalls := rfl
@[simp] theorem pushSink_observerCalls (v : Byte) (s : State) :
    (pushSink v s).observerCalls = s.observerCalls := rfl
@[simp] theorem pushSink_crcOut (v : Byte) (s : State) : (pushSink v s).crcOut = s.crcOut := rfl
@[simp] theorem pushSink_pending (v : Byte) (s : State) :
    (pushSink v s).pending = s.pending := rfl

@[simp] theorem encoderIdle_stage (s : State) : (encoderIdle s).stage = s.stage := rfl
@[simp] theorem encoderIdle_targetLength (s : State) :
    (encoderIdle s).targetLength = s.targetLength := rfl
@[simp] theorem encoderIdle_bytesConsumed (s : State) :
    (encoderIdle s).bytesConsumed = s.bytesConsumed := rfl
@[simp] theorem encoderIdle_crcAccumulator (s : State) :
    (encoderIdle s).crcAccumulator = s.crcAccumulator := rfl
@[simp] theorem encoderIdle_pb (s : State) : (encoderIdle s).pb = s.pb := rfl
@[simp] theorem encoderIdle_lastActivityTime (s : State) :
    (encoderIdle s).lastActivityTime = s.lastActivityTime := rfl
@[simp] theorem encoderIdle_event (s : State) : (encoderIdle s).event = s.event := rfl
@[simp] theorem encoderIdle_estage (s : State) : (encoderIdle s).estage = .eIdle := rfl
@[simp] theorem encoderIdle_elen (s : State) :
    (encoderIdle s).elen = Config.freeElen s.encDraws := rfl
@[simp] theorem encoderIdle_eidx (s : State) :
    (encoderIdle s).eidx = Config.freeEidx s.encDraws := rfl
@[simp] theorem encoderIdle_ecrc (s : State) :
    (encoderIdle s).ecrc = Config.freeEcrc s.encDraws := rfl
@[simp] theorem encoderIdle_txp (s : State) : (encoderIdle s).txp = [] := rfl
@[simp] theorem encoderIdle_sink (s : State) : (encoderIdle s).sink = s.sink := rfl
@[simp] theorem encoderIdle_encDraws (s : State) :
    (encoderIdle s).encDraws = s.encDraws + 1 := rfl
@[simp] theorem encoderIdle_cfg (s : State) : (encoderIdle s).cfg = s.cfg := rfl
@[simp] theorem encoderIdle_handler (s : State) : (encoderIdle s).handler = s.handler := rfl
@[simp] theorem encoderIdle_observer (s : State) : (encoderIdle s).observer = s.observer := rfl
@[simp] theorem encoderIdle_handlerCalls (s : State) :
    (encoderIdle s).handlerCalls = s.handlerCalls := rfl
@[simp] theorem encoderIdle_observerCalls (s : State) :
    (encoderIdle s).observerCalls = s.observerCalls := rfl
@[simp] theorem encoderIdle_crcOut (s : State) : (encoderIdle s).crcOut = s.crcOut := rfl
@[simp] theorem encoderIdle_pending (s : State) : (encoderIdle s).pending = s.pending := rfl

@[simp] theorem offerByte_stage (st : Stage) (b : Byte) (s : State) :
    (offerByte st b s).stage = st := rfl
@[simp] theorem offerByte_targetLength (st : Stage) (b : Byte) (s : State) :
    (offerByte st b s).targetLength = s.targetLength := rfl
@[simp] theorem offerByte_bytesConsumed (st : Stage) (b : Byte) (s : State) :
    (offerByte st b s).bytesConsumed = s.bytesConsumed := rfl
@[simp] theorem offerByte_crcAccumulator (st : Stage) (b : Byte) (s : State) :
    (offerByte st b s).crcAccumulator = s.crcAccumulator := rfl
@[simp] theorem offerByte_pb (st : Stage) (b : Byte) (s : State) :
    (offerByte st b s).pb = s.pb := rfl
@[simp] theorem offerByte_lastActivityTime (st : Stage) (b : Byte) (s : State) :
    (offerByte st b s).lastActivityTime = s.lastActivityTime := rfl
@[simp] theorem offerByte_event (st : Stage) (b : Byte) (s : State) :
    (offerByte st b s).event = s.event := rfl
@[simp] theorem offerByte_estage (st : Stage) (b : Byte) (s : State) :
    (offerByte st b s).estage = s.estage := rfl
@[simp] theorem offerByte_elen (st : Stage) (b : Byte) (s : State) :
    (offerByte st b s).elen = s.elen := rfl
@[simp] theorem offerByte_eidx (st : Stage) (b : Byte) (s : State) :
    (offerByte st b s).eidx = s.eidx := rfl
@[simp] theorem offerByte_ecrc (st : Stage) (b : Byte) (s : State) :
    (offerByte st b s).ecrc = s.ecrc := rfl
@[simp] theorem offerByte_txp (st : Stage) (b : Byte) (s : State) :
    (offerByte st b s).txp = s.txp := rfl
@[simp] theorem offerByte_sink (st : Stage) (b : Byte) (s : State) :
    (offerByte st b s).sink = s.sink := rfl
@[simp] theorem offerByte_encDraws (st : Stage) (b : Byte) (s : State) :
    (offerByte st b s).encDraws = s.encDraws := rfl
@[simp] theorem offerByte_cfg (st : Stage) (b : Byte) (s : State) :
    (offerByte st b s).cfg = s.cfg := rfl
@[simp] theorem offerByte_handler (st : Stage) (b : Byte) (s : State) :
    (offerByte st b s).handler = s.handler := rfl
@[simp] theorem offerByte_observer (st : Stage) (b : Byte) (s : State) :
    (offerByte st b s).observer = s.observer := rfl
@[simp] theorem offerByte_handlerCalls (st : Stage) (b : Byte) (s : State) :
    (offerByte st b s).handlerCalls = s.handlerCalls := rfl
@[simp] theorem offerByte_observerCalls (st : Stage) (b : Byte) (s : State) :
    (offerByte st b s).observerCalls = s.observerCalls := rfl
@[simp] theorem offerByte_crcOut (st : Stage) (b : Byte) (s : State) :
    (offerByte st b s).crcOut = s.crcOut := rfl
@[simp] theorem offerByte_pending (st : Stage) (b : Byte) (s : State) :
    (offerByte st b s).pending = .rxByte b s.lastActivityTime :: s.pending := rfl

/-- The whole of what `report` can change. -/
theorem reportKind_eq (k : ErrorKind) (s : State) :
    reportKind k s =
      { s with observerCalls := s.observerCalls ++ (s.observer.map fun o => ⟨o, k⟩).toList } := by
  have h0 (h : s.observer = none) : (s.observer.map fun o => (⟨o, k⟩ : ObserverCall)).toList = [] := by
    rw [h]; rfl
  unfold reportKind
  split
  · rename_i h; rw [h0 h, List.append_nil]
  · rename_i o h; simp [h]

/-- The whole of what calling the handler can change. -/
theorem callHandler_eq (id : Byte) (body : List Byte) (s : State) :
    callHandler id body s =
      { s with handlerCalls :=
          s.handlerCalls ++ (s.handler.map fun h => ⟨h, id, body, body.length⟩).toList } := by
  have h0 (h : s.handler = none) :
      (s.handler.map fun h => (⟨h, id, body, body.length⟩ : HandlerCall)).toList = [] := by
    rw [h]; rfl
  unfold callHandler
  split
  · rename_i h; rw [h0 h, List.append_nil]
  · rename_i o h; simp [h]

/-- The whole of what `DISPATCH` can change: the two records of calls. -/
theorem dispatchMessage_eq (id : Byte) (body : List Byte) (s : State) :
    dispatchMessage id body s =
      { s with
        handlerCalls := s.handlerCalls ++ (s.handler.map fun h => ⟨h, id, body, body.length⟩).toList
        observerCalls := s.observerCalls ++
          (if handlerAnswer s id body then none
            else s.observer.map fun o => ⟨o, .unhandledMessage⟩).toList } := by
  unfold dispatchMessage
  split <;> simp [reportKind_eq, callHandler_eq]

/-- The three outcomes of payload entry (R69), as whole states. -/
theorem enterPayload_eq (s : State) :
    enterPayload s =
      if s.cfg.maxCapacity < s.targetLength then raiseError .memoryError s
      else if s.targetLength = 0 then { s with bytesConsumed := 0, stage := .crcHi }
      else { s with bytesConsumed := 0, stage := .payload } := by
  simp only [enterPayload, overCapacity, gt_iff_lt, decide_eq_true_eq]
  split <;> rfl

end Sys2Proof.Machine
end

