-- ==== Sys2Proof/Laws/Exec.lean ====
section
/-! SUPPORT. What each operation, the parts of a byte-step, and a step can do, said once: later proofs
cite these lemmas and unfold no meaning. -/

namespace Sys2Proof.Machine

/-- A sequence that goes on went on at both parts. -/
theorem andThen_next_iff {o : Host.Outcome State Fault Refusal}
    {f : State → Host.Outcome State Fault Refusal} {t : State} :
    andThen o f = .next t ↔ ∃ s, o = .next s ∧ f s = .next t := by
  cases o <;> simp [andThen]

@[simp] theorem andThen_next (s : State) (f : State → Host.Outcome State Fault Refusal) :
    andThen (.next s) f = f s := rfl

@[simp] theorem andThen_fault (r : Fault) (f : State → Host.Outcome State Fault Refusal) :
    andThen (.fault r) f = .fault r := rfl

@[simp] theorem andThen_refused (r : Refusal) (f : State → Host.Outcome State Fault Refusal) :
    andThen (.refused r) f = .refused r := rfl

/-! ### The decoder's operations -/

/-- The two outcomes of `D.PAYLOAD` (R70). -/
theorem execDPayload_eq (b : Byte) (s : State) :
    execDPayload b s =
      if s.bytesConsumed < s.cfg.maxCapacity then
        .next { s with
          pb := s.pb.write s.bytesConsumed.toNat b
          bytesConsumed := s.bytesConsumed + 1
          stage := if s.bytesConsumed + 1 = s.targetLength then .crcHi else .payload }
      else .fault (.bufferOutOfRange s.bytesConsumed.toNat) := by
  simp only [execDPayload, memWrite, BitVec.lt_def]
  split <;> simp [payloadComplete]

/-- `D.END_OK` where the buffer holds the payload (R73). -/
theorem execDEndOk_of_payload {s : State} {p : List Byte} (hl : p.length = s.targetLength.toNat)
    (hc : p.length ≤ s.cfg.maxCapacity.toNat) (h : ∀ i, i < p.length → s.pb.read i = p[i]?) :
    execDEndOk s =
      if crc16 p = s.crcAccumulator then .next (complete p s)
      else .next (raiseError .crcError s) := by
  have : readPayload s = .ok p := by
    rw [readPayload, ← hl]
    exact readRange_eq_ok (by omega) (by simpa using h)
  simp [execDEndOk, this]

/-- Everything `D.END_OK` can do when it goes on (R73). -/
theorem execDEndOk_next_iff {s t : State} :
    execDEndOk s = .next t ↔ ∃ p, readPayload s = .ok p ∧
      t = if crc16 p = s.crcAccumulator then complete p s else raiseError .crcError s := by
  unfold execDEndOk
  split
  · rename_i r h
    simp [h]
  · rename_i p h
    simp only [h, Except.ok.injEq, exists_eq_left']
    split <;> simp [eq_comm]

/-- A sample fits exactly when it is below the bound of `TIME_WIDTH`, if there is one (R26). -/
theorem exceededWidth_eq_none_iff {cfg : CodecConfig} {now : Nat} :
    exceededWidth cfg now = none ↔ ∀ w, cfg.timeWidth = some w → now < 2 ^ w := by
  unfold exceededWidth
  split <;> simp [*]

/-- The sample 0 fits every width. -/
@[simp] theorem exceededWidth_zero (cfg : CodecConfig) : exceededWidth cfg 0 = none :=
  exceededWidth_eq_none_iff.2 fun _ _ => Nat.two_pow_pos _

/-- A sample below one that fits does too. -/
theorem exceededWidth_of_le {cfg : CodecConfig} {a b : Nat} (h : a ≤ b)
    (hb : exceededWidth cfg b = none) : exceededWidth cfg a = none :=
  exceededWidth_eq_none_iff.2 fun w hw => Nat.lt_of_le_of_lt h (exceededWidth_eq_none_iff.1 hb w hw)

/-- The outcomes of the prologue (R62, R120, R121). -/
theorem execDTimeoutPrologue_eq (now : Nat) (s : State) :
    execDTimeoutPrologue now s =
      if now < s.lastActivityTime then .refused (.timeWentBack now s.lastActivityTime)
      else match exceededWidth s.cfg now with
        | some w => .refused (.timeWrapped now w)
        | none =>
          if timeoutExpired s now then
            .next { raiseError .receiveTimeout s with lastActivityTime := now }
          else .next { s with lastActivityTime := now } := by
  unfold execDTimeoutPrologue
  cases exceededWidth s.cfg now
  · split
    · rfl
    · simp only
      split <;> rfl
  · rfl

/-! ### The encoder's operations -/

/-- When an ENCODE has a meaning (R98, R99). -/
theorem encodeRefusal_eq_none_iff {p : List Byte} {s : State} :
    encodeRefusal p s = none ↔ p.length ≤ 65535 ∧ s.estage = .eIdle := by
  unfold encodeRefusal
  split
  · simp; omega
  · split <;> simp_all

/-- The two outcomes of `E.PAYLOAD` (R94). -/
theorem execEPayload_eq (s : State) :
    execEPayload s =
      match s.txp[s.eidx.toNat]? with
      | none => .fault (.payloadSourceOutOfRange s.eidx.toNat)
      | some v => .next { s with
          sink := s.sink ++ [v]
          eidx := s.eidx + 1
          estage := if s.eidx + 1 = s.elen then .eCrcHi else .ePayload } := by
  unfold execEPayload
  split <;> simp [*, pushSink]

/-! ### The parts of a byte-step -/

/-- The environment's reaction always goes on, and changes at most its two records of calls. -/
theorem react_eq (s : State) :
    ∃ hc oc, react s = .next { s with handlerCalls := hc, observerCalls := oc } := by
  unfold react
  split
  · exact ⟨_, _, rfl⟩
  · exact ⟨_, _, rfl⟩
  · simp only [exec, execDispatch, dispatchMessage_eq]
    exact ⟨_, _, rfl⟩
  · simp only [exec, execReport, reportKind_eq]
    exact ⟨_, _, rfl⟩

/-- The state the prologue leaves to the body of a byte-step (R62). -/
def afterPrologue (now : Nat) (s : State) : State :=
  if timeoutExpired s now then
    { raiseError .receiveTimeout s with lastActivityTime := now }
  else { s with event := .noEvent, lastActivityTime := now }

/-- A byte-step is its body in the state after the prologue, then the reaction. -/
theorem byteStep_eq {b : Byte} {now : Nat} {s : State} (h : s.lastActivityTime ≤ now)
    (hw : exceededWidth s.cfg now = none) :
    byteStep b now s = andThen (byteBody b (afterPrologue now s)) react := by
  have hx : timeoutExpired { s with event := .noEvent } now = timeoutExpired s now := rfl
  rw [byteStep, exec, execDTimeoutPrologue_eq, if_neg (Nat.not_lt.2 h)]
  simp only [hw, hx, afterPrologue]
  split <;> rfl

/-- A byte-step with a sample below the last one (R121). -/
theorem byteStep_refused {b : Byte} {now : Nat} {s : State} (h : now < s.lastActivityTime) :
    byteStep b now s = .refused (.timeWentBack now s.lastActivityTime) := by
  rw [byteStep, exec, execDTimeoutPrologue_eq, if_pos h]
  rfl

/-- A byte-step with a sample past a wrap-around of the time counter (R121). -/
theorem byteStep_wrapped {b : Byte} {now w : Nat} {s : State} (h : s.lastActivityTime ≤ now)
    (hw : exceededWidth s.cfg now = some w) :
    byteStep b now s = .refused (.timeWrapped now w) := by
  rw [byteStep, exec, execDTimeoutPrologue_eq, if_neg (Nat.not_lt.2 h)]
  simp only [hw, andThen_refused]

/-- The body of a byte-step, stage by stage (R54). -/
theorem byteBody_eq (b : Byte) (s : State) :
    byteBody b s =
      match s.stage with
      | .awaitStart =>
        if b = 0x02 then execDStartShort s else if b = 0x03 then execDStartLong s else execDNoise b s
      | .lenShort => execDLenShort b s
      | .lenHi => execDLenHi b s
      | .lenLo => execDLenLo b s
      | .payload => execDPayload b s
      | .crcHi => execDCrcHi b s
      | .crcLo => execDCrcLo b s
      | .awaitEnd => if b = 0x03 then execDEndOk s else execDEndBad b s := by
  unfold byteBody decode
  cases s.stage <;>
    simp only [decodeRx_awaitStart, decodeRx_lenShort, decodeRx_lenHi, decodeRx_lenLo,
      decodeRx_payload, decodeRx_crcHi, decodeRx_crcLo, decodeRx_awaitEnd]
  · split
    · rfl
    · split <;> rfl
  all_goals first | rfl | (split <;> rfl)

/-! ### A step -/

/-- What one step does, by what is pending. -/
theorem step_eq (s : State) :
    step s =
      match s.pending with
      | [] => emitStep s
      | x :: rest => perform x { s with pending := rest } := by
  unfold step cycle
  split <;> rename_i h <;> rw [h]

/-- The encoder's turn, by its sequencer (R55). -/
theorem emitStep_eq (s : State) :
    emitStep s =
      match s.estage with
      | .eIdle => .next s
      | .eStart => execEStart s
      | .eLenShort => execELenShort s
      | .eLenHi => execELenHi s
      | .eLenLo => execELenLo s
      | .ePayload => execEPayload s
      | .eCrcHi => execECrcHi s
      | .eCrcLo => execECrcLo s
      | .eEnd => execEEnd s := by
  unfold emitStep decode decodeTx
  cases s.estage <;> rfl

/-- Everything a step that goes on can have been. -/
theorem step_cases {s t : State} (h : step s = .next t) :
    (s.pending = [] ∧ emitStep s = .next t) ∨
    ∃ x rest, s.pending = x :: rest ∧
      ((∃ b now, x = .rxByte b now ∧ s.lastActivityTime ≤ now ∧ exceededWidth s.cfg now = none ∧
        ∃ u hc oc, byteBody b (afterPrologue now { s with pending := rest }) = .next u ∧
          react u = .next t ∧ t = { u with handlerCalls := hc, observerCalls := oc }) ∨
      (x = .softReset ∧ t = clear { s with pending := rest, event := .noEvent }) ∨
      (x = .hardReset ∧ t = hardReset { s with pending := rest }) ∨
      (∃ p, x = .encodeRequest p ∧ acceptEncode p { s with pending := rest } = .next t) ∨
      (x = .emit ∧ emitStep { s with pending := rest } = .next t) ∨
      (∃ f, x = .invoke f ∧ exec (decodeCall f) { s with pending := rest } = .next t) ∨
      (∃ n, x = .registerHandler n ∧ t = { s with pending := rest, handler := some n }) ∨
      (∃ n, x = .registerObserver n ∧ t = { s with pending := rest, observer := some n })) := by
  rw [step_eq] at h
  split at h
  · rename_i hp
    exact .inl ⟨hp, h⟩
  · rename_i x rest hp
    refine .inr ⟨x, rest, hp, ?_⟩
    cases x with
    | rxByte b now =>
      refine .inl ⟨b, now, rfl, ?_⟩
      rw [perform] at h
      by_cases hn : now < s.lastActivityTime
      · rw [byteStep_refused (s := { s with pending := rest }) hn] at h
        cases h
      · have hw : exceededWidth s.cfg now = none := by
          cases hw : exceededWidth s.cfg now with
          | none => rfl
          | some w =>
            rw [byteStep_wrapped (s := { s with pending := rest }) (Nat.not_lt.1 hn) hw] at h
            cases h
        refine ⟨Nat.not_lt.1 hn, hw, ?_⟩
        rw [byteStep_eq (s := { s with pending := rest }) (Nat.not_lt.1 hn) hw] at h
        obtain ⟨u, hu, hr⟩ := andThen_next_iff.1 h
        obtain ⟨hc, oc, hr'⟩ := react_eq u
        rw [hr'] at hr
        exact ⟨u, hc, oc, hu, by rw [hr', hr], (Host.Outcome.next.inj hr).symm⟩
    | softReset => exact .inr (.inl ⟨rfl, (Host.Outcome.next.inj h).symm⟩)
    | hardReset => exact .inr (.inr (.inl ⟨rfl, (Host.Outcome.next.inj h).symm⟩))
    | encodeRequest p => exact .inr (.inr (.inr (.inl ⟨p, rfl, h⟩)))
    | emit => exact .inr (.inr (.inr (.inr (.inl ⟨rfl, h⟩))))
    | invoke f => exact .inr (.inr (.inr (.inr (.inr (.inl ⟨f, rfl, h⟩)))))
    | registerHandler n =>
      exact .inr (.inr (.inr (.inr (.inr (.inr (.inl ⟨n, rfl, (Host.Outcome.next.inj h).symm⟩))))))
    | registerObserver n =>
      exact .inr (.inr (.inr (.inr (.inr (.inr (.inr ⟨n, rfl, (Host.Outcome.next.inj h).symm⟩))))))

end Sys2Proof.Machine
end

