-- ==== Sys2Proof/Laws/Frames.lean ====
section
/-! SUPPORT. What the parts of a step leave unchanged, and runs of steps taken in two parts. -/

namespace Sys2Proof.Machine

/-- Payload entry writes the decoder's registers and the event only. -/
theorem enterPayload_frame (s : State) :
    enterPayload s = { s with
      stage := (enterPayload s).stage
      targetLength := (enterPayload s).targetLength
      bytesConsumed := (enterPayload s).bytesConsumed
      crcAccumulator := (enterPayload s).crcAccumulator
      pb := (enterPayload s).pb
      event := (enterPayload s).event } := by
  rw [enterPayload_eq]
  split
  · rfl
  · split <;> rfl

/-- The body of a byte-step writes the decoder's registers and the event only; not the time. -/
theorem byteBody_frame {s t : State} {b : Byte} (h : byteBody b s = .next t) :
    t = { s with
      stage := t.stage, targetLength := t.targetLength, bytesConsumed := t.bytesConsumed
      crcAccumulator := t.crcAccumulator, pb := t.pb, event := t.event } := by
  rw [byteBody_eq] at h
  split at h
  · split at h
    · cases h; rfl
    · split at h <;> cases h <;> rfl
  · cases h; exact enterPayload_frame _
  · cases h; rfl
  · cases h; exact enterPayload_frame _
  · rw [execDPayload_eq] at h
    split at h <;> cases h
    rfl
  · cases h; rfl
  · cases h; rfl
  · split at h
    · obtain ⟨p, -, rfl⟩ := execDEndOk_next_iff.1 h
      split <;> rfl
    · cases h; rfl

/-- The prologue writes the decoder's registers, the event and the time only. -/
theorem afterPrologue_frame (now : Nat) (s : State) :
    afterPrologue now s = { s with
      stage := (afterPrologue now s).stage
      targetLength := (afterPrologue now s).targetLength
      bytesConsumed := (afterPrologue now s).bytesConsumed
      crcAccumulator := (afterPrologue now s).crcAccumulator
      pb := (afterPrologue now s).pb
      event := (afterPrologue now s).event
      lastActivityTime := now } := by
  unfold afterPrologue
  split <;> rfl

/-- The encoder's turn writes the encoder's registers and the sink only. -/
theorem emitStep_frame {s t : State} (h : emitStep s = .next t) :
    t = { s with
      sink := t.sink, estage := t.estage, elen := t.elen, eidx := t.eidx, ecrc := t.ecrc
      txp := t.txp, encDraws := t.encDraws } := by
  rw [emitStep_eq] at h
  split at h
  case h_2 => unfold execEStart at h; split at h <;> cases h <;> rfl
  case h_6 => rw [execEPayload_eq] at h; split at h <;> cases h; rfl
  all_goals cases h; rfl

/-- A call other than ENCODE writes the returned value or the records of calls only. -/
theorem call_frame {f : Service} {s t : State} (h : exec (decodeCall f) s = .next t) :
    (∃ p, f = .encode p ∧ execEncode p s = .next t) ∨
    t = { s with
      crcOut := t.crcOut, handlerCalls := t.handlerCalls, observerCalls := t.observerCalls } := by
  cases f with
  | encode p => exact .inl ⟨p, rfl, h⟩
  | dispatch p =>
    right
    cases p with
    | nil => cases h
    | cons v p => simp only [decodeCall, exec, execDispatch, dispatchMessage_eq] at h; cases h; rfl
  | report k => right; simp only [decodeCall, exec, execReport, reportKind_eq] at h; cases h; rfl
  | _ => right; cases h; rfl

theorem react_noEvent {s : State} (h : s.event = .noEvent) : react s = .next s := by
  simp [react, h]

/-- A step whose stimulus is a byte with a sample that neither decreases nor wraps around. -/
theorem step_rxByte {s : State} {b : Byte} {now : Nat} {rest : List Stimulus}
    (hp : s.pending = .rxByte b now :: rest) (h : s.lastActivityTime ≤ now)
    (hw : exceededWidth s.cfg now = none) :
    step s = andThen (byteBody b (afterPrologue now { s with pending := rest })) react := by
  rw [step_eq, hp]
  exact byteStep_eq (s := { s with pending := rest }) h hw

/-- Reading a range depends on the buffer and the capacity only. -/
theorem readRange_congr {s t : State} (hb : s.pb = t.pb) (hc : s.cfg = t.cfg) (a n : Nat) :
    readRange s a n = readRange t a n := by
  induction n generalizing a with
  | zero => rfl
  | succ n ih => simp only [readRange, memRead, hb, hc, ih]

/-- A run in two parts. -/
theorem runEvents_add (m n : Nat) (s : State) :
    runEvents (m + n) s =
      (runEvents m s).bind fun x => (runEvents n x.1).map fun y => (y.1, x.2 ++ y.2) := by
  induction m generalizing s with
  | zero => simp [runEvents]
  | succ m ih =>
    rw [show m + 1 + n = (m + n) + 1 by omega]
    simp only [runEvents]
    cases step s with
    | next t =>
      simp only [ih]
      cases h : runEvents m t with
      | none => simp
      | some x =>
        obtain ⟨u, es⟩ := x
        simp
        cases runEvents n u <;> simp
    | fault r => simp
    | refused r => simp

/-- A run in two parts. -/
theorem runSteps_add (m n : Nat) (s : State) :
    runSteps (m + n) s = andThen (runSteps m s) (runSteps n) := by
  induction m generalizing s with
  | zero => simp [runSteps]
  | succ m ih =>
    rw [show m + 1 + n = (m + n) + 1 by omega]
    simp only [runSteps]
    cases step s <;> simp [ih]

/-- The loop of R102 is a left fold. -/
theorem crcOver_eq_foldl (r : Half) (s : List Byte) : crcOver r s = s.foldl crcByte r := by
  induction s generalizing r with
  | nil => rfl
  | cons v s ih => exact ih _

end Sys2Proof.Machine
end

