-- ==== Sys2Proof/Laws/PerInstr.lean ====
section
/-! SUPPORT. The statements made per operation: the family `TableRow` says that the word of an
operation is that of its own row of the operation map (R54, R55, R60). -/

namespace Sys2Proof.Laws.TableRow

/-- The word of an operation meets its row: for a byte-step a row of `rxRows` of the word's stage,
whose test the word's byte passes and which yields the operation; for an emission step a sequencer
value other than `EIdle`; for the others the input or the call itself. -/
def Statement (i : Instr) : Prop :=
  i.wellFormed = true →
    match encode i with
    | .rx st b => ∃ r ∈ rxRows, r.stage = st ∧ b &&& r.mask = r.wanted ∧ r.op b = i
    | .softReset => i = .dReset
    | .timeSample now => i = .dTimeoutPrologue now
    | .tx e => e ≠ .eIdle ∧ decodeTx e = .ok i
    | .call f => decodeCall f = i

/-- A row whose mask is 0 passes every byte. -/
theorem passes_all (b : Byte) : b &&& 0x00 = 0x00 := BitVec.and_zero

theorem dStartShort : Statement .dStartShort := fun _ =>
  ⟨⟨.awaitStart, 0x02, 0xFF, fun _ => .dStartShort⟩, by simp [rxRows], rfl, by decide, rfl⟩

theorem dStartLong : Statement .dStartLong := fun _ =>
  ⟨⟨.awaitStart, 0x03, 0xFF, fun _ => .dStartLong⟩, by simp [rxRows], rfl, by decide, rfl⟩

theorem dNoise (b : Byte) : Statement (.dNoise b) := fun _ =>
  ⟨⟨.awaitStart, 0x00, 0x00, .dNoise⟩, by simp [rxRows], rfl, passes_all b, rfl⟩

theorem dLenShort (b : Byte) : Statement (.dLenShort b) := fun _ =>
  ⟨⟨.lenShort, 0x00, 0x00, .dLenShort⟩, by simp [rxRows], rfl, passes_all b, rfl⟩

theorem dLenHi (b : Byte) : Statement (.dLenHi b) := fun _ =>
  ⟨⟨.lenHi, 0x00, 0x00, .dLenHi⟩, by simp [rxRows], rfl, passes_all b, rfl⟩

theorem dLenLo (b : Byte) : Statement (.dLenLo b) := fun _ =>
  ⟨⟨.lenLo, 0x00, 0x00, .dLenLo⟩, by simp [rxRows], rfl, passes_all b, rfl⟩

theorem dPayload (b : Byte) : Statement (.dPayload b) := fun _ =>
  ⟨⟨.payload, 0x00, 0x00, .dPayload⟩, by simp [rxRows], rfl, passes_all b, rfl⟩

theorem dCrcHi (b : Byte) : Statement (.dCrcHi b) := fun _ =>
  ⟨⟨.crcHi, 0x00, 0x00, .dCrcHi⟩, by simp [rxRows], rfl, passes_all b, rfl⟩

theorem dCrcLo (b : Byte) : Statement (.dCrcLo b) := fun _ =>
  ⟨⟨.crcLo, 0x00, 0x00, .dCrcLo⟩, by simp [rxRows], rfl, passes_all b, rfl⟩

theorem dEndOk : Statement .dEndOk := fun _ =>
  ⟨⟨.awaitEnd, 0x03, 0xFF, fun _ => .dEndOk⟩, by simp [rxRows], rfl, by decide, rfl⟩

theorem dEndBad (b : Byte) : Statement (.dEndBad b) := fun _ =>
  ⟨⟨.awaitEnd, 0x00, 0x00, .dEndBad⟩, by simp [rxRows], rfl, passes_all b, rfl⟩

theorem dReset : Statement .dReset := fun _ => rfl

theorem dTimeoutPrologue (now : Nat) : Statement (.dTimeoutPrologue now) := fun _ => rfl

theorem eStart : Statement .eStart := fun _ => ⟨by decide, rfl⟩

theorem eLenShort : Statement .eLenShort := fun _ => ⟨by decide, rfl⟩

theorem eLenHi : Statement .eLenHi := fun _ => ⟨by decide, rfl⟩

theorem eLenLo : Statement .eLenLo := fun _ => ⟨by decide, rfl⟩

theorem ePayload : Statement .ePayload := fun _ => ⟨by decide, rfl⟩

theorem eCrcHi : Statement .eCrcHi := fun _ => ⟨by decide, rfl⟩

theorem eCrcLo : Statement .eCrcLo := fun _ => ⟨by decide, rfl⟩

theorem eEnd : Statement .eEnd := fun _ => ⟨by decide, rfl⟩

theorem encode (p : List Byte) : Statement (.encode p) := fun _ => rfl

theorem crc16 (p : List Byte) : Statement (.crc16 p) := fun _ => rfl

theorem crcInit : Statement .crcInit := fun _ => rfl

theorem crcByte (r : Half) (v : Byte) : Statement (.crcByte r v) := fun _ => rfl

theorem crcFinal (r : Half) : Statement (.crcFinal r) := fun _ => rfl

theorem dispatch (p : List Byte) : Statement (.dispatch p) := fun _ => rfl

theorem report (kind : ErrorKind) : Statement (.report kind) := fun _ => rfl

end Sys2Proof.Laws.TableRow
end

