-- ==== Sys2Proof/Tests/Slice0.lean ====
section
/-! SUPPORT. The row's own tests: well-formedness refuses an ill-formed operation for each check; words
written out from the tables of R54, R55 and R60 decode to their operations; single steps whose expected
results are those of spec/95_test_vectors.md (named in the docstrings); and for each obligation a
concrete state that meets its hypotheses. -/

namespace Sys2Proof.Tests

open Sys2Proof.Machine

/-! ### Well-formedness -/

theorem test_noise_02_is_ill_formed : (Instr.dNoise 0x02).wellFormed = false := by decide
theorem test_noise_03_is_ill_formed : (Instr.dNoise 0x03).wellFormed = false := by decide
theorem test_endBad_03_is_ill_formed : (Instr.dEndBad 0x03).wellFormed = false := by decide
theorem test_dispatch_empty_is_ill_formed : (Instr.dispatch []).wellFormed = false := by decide

theorem test_long_payloads_are_ill_formed (p : List Byte) (h : p.length = 65536) :
    (Instr.encode p).wellFormed = false ∧ (Instr.crc16 p).wellFormed = false ∧
      (Instr.dispatch p).wellFormed = false := by
  simp [Instr.wellFormed, h]

/-- A payload of 65536 bytes, one too many (R98). -/
def tooLong : List Byte := List.replicate 65536 0

theorem test_tooLong_length : tooLong.length = 65536 := List.length_replicate

theorem test_encode_tooLong_is_ill_formed : (Instr.encode tooLong).wellFormed = false :=
  (test_long_payloads_are_ill_formed tooLong test_tooLong_length).1

/-! ### Decoding -/

/-- R54, rows in the order of the table; a word of 11 bits is a stage number and a byte (log 15). -/
theorem test_decode_receive_words :
    decodeTableWord 8 0b00000010 = some .dStartShort ∧
    decodeTableWord 8 0b00000011 = some .dStartLong ∧
    decodeTableWord 8 0b00000100 = some (.dNoise 0x04) ∧
    decodeTableWord 16 0b001_01000000 = some (.dLenShort 0x40) ∧
    decodeTableWord 16 0b010_00000001 = some (.dLenHi 0x01) ∧
    decodeTableWord 16 0b011_11111111 = some (.dLenLo 0xFF) ∧
    decodeTableWord 16 0b100_00000011 = some (.dPayload 0x03) ∧
    decodeTableWord 16 0b101_01100001 = some (.dCrcHi 0x61) ∧
    decodeTableWord 16 0b110_00110001 = some (.dCrcLo 0x31) ∧
    decodeTableWord 16 0b111_00000011 = some .dEndOk ∧
    decodeTableWord 16 0b111_00000010 = some (.dEndBad 0x02) ∧
    decodeTableWord 16 0b1000_00000010 = none := by decide

/-- R75, R62: the two rows that consume no byte. -/
theorem test_decode_control_words :
    decode .softReset = .ok .dReset ∧ decode (.timeSample 7) = .ok (.dTimeoutPrologue 7) := by decide

/-- R55: the emission step of each value of the sequencer. -/
theorem test_decode_emission_words :
    [EStage.eIdle, .eStart, .eLenShort, .eLenHi, .eLenLo, .ePayload, .eCrcHi, .eCrcLo, .eEnd].map
        (fun e => decode (.tx e)) =
      [.error .encoderIdle, .ok .eStart, .ok .eLenShort, .ok .eLenHi, .ok .eLenLo, .ok .ePayload,
        .ok .eCrcHi, .ok .eCrcLo, .ok .eEnd] := by decide

/-- R60: the rows without a wire encoding. -/
theorem test_decode_calls :
    [Service.encode [5], .crc16 [5], .crcInit, .crcByte 1 2, .crcFinal 3, .dispatch [5],
        .report .crcError].map (fun f => decode (.call f)) =
      [.ok (.encode [5]), .ok (.crc16 [5]), .ok .crcInit, .ok (.crcByte 1 2), .ok (.crcFinal 3),
        .ok (.dispatch [5]), .ok (.report .crcError)] := by decide

/-- A table word placed after reset is what the first step runs. -/
theorem test_withFetchWord_runs_first :
    (match step (State.reset.withFetchWord 8 0x02) with
      | .next t => some (t.stage, t.pending)
      | _ => none) = some (.lenShort, []) := by decide

/-- The suggested port values of R34: 7 for a completed payload, the code of R115 for an error. -/
theorem test_event_codes :
    Event.kindCode (.completed []) = some 7 ∧ Event.kindCode (.error .receiveTimeout) = some 0 ∧
      Event.kindCode (.error .crcError) = some 1 ∧ Event.kindCode (.error .endByteError) = some 2 ∧
      Event.kindCode (.error .unhandledMessage) = some 3 ∧
      Event.kindCode (.error .memoryError) = some 4 ∧ Event.kindCode .noEvent = none := by decide

/-! ### Helpers: states and outcomes of the vectors -/

/-- A decoder state of the vectors: capacity, stage, `targetLength`, `bytesConsumed`, checksum, and
the bytes of `PB`. -/
def dec (cap : Half) (st : Stage) (tl bc crc : Half) (pb : List Byte) : State :=
  { State.resetWith ⟨cap, false, 0, none, .fixed⟩ with
    stage := st, targetLength := tl, bytesConsumed := bc, crcAccumulator := crc
    pb := (List.range pb.length).zip pb }

/-- The state of the timeout vectors: enabled, with an interval of 100, 3 payload bytes awaited. -/
def timed (st : Stage) (last : Nat) : State :=
  { State.resetWith ⟨64, true, 100, none, .fixed⟩ with stage := st, lastActivityTime := last }

/-- A decoder in `AwaitStart` whose time has 8 bits. -/
def narrow (last : Nat) : State :=
  { State.resetWith ⟨64, true, 100, some 8, .fixed⟩ with lastActivityTime := last }

/-- An encoder state: sequencer, payload, index. -/
def enc (e : EStage) (p : List Byte) (i : Half) : State :=
  { State.reset with
    estage := e, txp := p, elen := lengthHalf p, eidx := i, ecrc := crc16 p }

/-- The state with a byte pending. -/
def offer (b : Byte) (now : Nat) (s : State) : State := { s with pending := [.rxByte b now] }

/-- The decoder's registers and the event after a step. -/
def regs (o : Host.Outcome State Fault Refusal) : Option (Stage × Half × Half × Half × Event) :=
  match o with
  | .next t => some (t.stage, t.targetLength, t.bytesConsumed, t.crcAccumulator, t.event)
  | _ => none

/-- The sequencer, the index and the sink after a step. -/
def emitted (o : Host.Outcome State Fault Refusal) : Option (EStage × List Byte) :=
  match o with
  | .next t => some (t.estage, t.sink)
  | _ => none

/-- The value a call of the checksum service returned. -/
def returned (o : Host.Outcome State Fault Refusal) : Option Half :=
  match o with
  | .next t => some t.crcOut
  | _ => none

/-- The records of calls after a step. -/
def called (o : Host.Outcome State Fault Refusal) : Option (List HandlerCall × List ObserverCall) :=
  match o with
  | .next t => some (t.handlerCalls, t.observerCalls)
  | _ => none

/-! ### The decoder, one byte-step each (vectors B1 to B37) -/

/-- B1. -/
theorem test_startShort : regs (step (offer 0x02 0 (dec 64 .awaitStart 0 0 0 []))) =
    some (.lenShort, 0, 0, 0, .noEvent) := by decide

/-- B2. -/
theorem test_startLong : regs (step (offer 0x03 0 (dec 64 .awaitStart 0 0 0 []))) =
    some (.lenHi, 0, 0, 0, .noEvent) := by decide

/-- B5, B6. -/
theorem test_noise : [0x01, 0x04].map (fun b => regs (step (offer b 0 (dec 64 .awaitStart 0 0 0 [])))) =
    [some (.awaitStart, 0, 0, 0, .noEvent), some (.awaitStart, 0, 0, 0, .noEvent)] := by decide

/-- B8, B9, B10. -/
theorem test_lenShort :
    [0x00, 0x40, 0x41].map (fun b => regs (step (offer b 0 (dec 64 .lenShort 0 0 0 [])))) =
      [some (.crcHi, 0, 0, 0, .noEvent), some (.payload, 64, 0, 0, .noEvent),
        some (.awaitStart, 0, 0, 0, .error .memoryError)] := by decide

/-- B12, B13: capacity 0. -/
theorem test_lenShort_capacity_zero :
    [0x00, 0x01].map (fun b => regs (step (offer b 0 (dec 0 .lenShort 0 0 0 [])))) =
      [some (.crcHi, 0, 0, 0, .noEvent), some (.awaitStart, 0, 0, 0, .error .memoryError)] := by decide

/-- B15. -/
theorem test_lenHi : regs (step (offer 0xFF 0 (dec 64 .lenHi 0 0 0 []))) =
    some (.lenLo, 0xFF00, 0, 0, .noEvent) := by decide

/-- B16, B17. -/
theorem test_lenLo :
    [1024, 255].map (fun cap => regs (step (offer 0x00 0 (dec cap .lenLo 0x0100 0 0 [])))) =
      [some (.payload, 256, 0, 0, .noEvent), some (.awaitStart, 0, 0, 0, .error .memoryError)] := by
  decide

/-- B20, B18. -/
theorem test_lenLo_extremes :
    regs (step (offer 0xFF 0 (dec 65535 .lenLo 0xFF00 0 0 []))) =
      some (.payload, 65535, 0, 0, .noEvent) ∧
    regs (step (offer 0x00 0 (dec 64 .lenLo 0x0000 0 0 []))) =
      some (.crcHi, 0, 0, 0, .noEvent) := by decide

/-- B22, B23: the byte `03` is data here. -/
theorem test_payload :
    regs (step (offer 0x01 0 (dec 64 .payload 3 0 0 []))) = some (.payload, 3, 1, 0, .noEvent) ∧
    regs (step (offer 0x03 0 (dec 64 .payload 3 2 0 [0x01, 0x02]))) =
      some (.crcHi, 3, 3, 0, .noEvent) := by decide

/-- B23: the buffer then holds the three bytes. -/
theorem test_payload_buffer :
    (match step (offer 0x03 0 (dec 64 .payload 3 2 0 [0x01, 0x02])) with
      | .next t => some t.pb
      | _ => none) = some [(0, 0x01), (1, 0x02), (2, 0x03)] := by decide

/-- B25. -/
theorem test_crcHi : regs (step (offer 0x61 0 (dec 64 .crcHi 3 3 0 [1, 2, 3]))) =
    some (.crcLo, 3, 3, 0x6100, .noEvent) := by decide

/-- B27. -/
theorem test_crcLo : regs (step (offer 0x31 0 (dec 64 .crcLo 3 3 0x6100 [1, 2, 3]))) =
    some (.awaitEnd, 3, 3, 0x6131, .noEvent) := by decide

/-- B28. -/
theorem test_endOk_match :
    regs (exec .dEndOk (dec 64 .awaitEnd 3 3 0x6131 [0x01, 0x02, 0x03])) =
      some (.awaitStart, 0, 0, 0, .completed [0x01, 0x02, 0x03]) := by decide +kernel

/-- B29. -/
theorem test_endOk_mismatch :
    regs (exec .dEndOk (dec 64 .awaitEnd 3 3 0x6130 [0x01, 0x02, 0x03])) =
      some (.awaitStart, 0, 0, 0, .error .crcError) := by decide +kernel

/-- B33, B34: no second meaning for the byte, and the end is tested first. -/
theorem test_endBad :
    regs (step (offer 0x02 0 (dec 64 .awaitEnd 3 3 0x6131 [1, 2, 3]))) =
      some (.awaitStart, 0, 0, 0, .error .endByteError) ∧
    regs (step (offer 0x00 0 (dec 64 .awaitEnd 3 3 0x0000 [1, 2, 3]))) =
      some (.awaitStart, 0, 0, 0, .error .endByteError) := by decide

/-- B35, B37. -/
theorem test_reset :
    [dec 64 .payload 3 1 0 [1], dec 64 .awaitEnd 1 1 0x50A5 [5]].map (fun s => regs (exec .dReset s)) =
      [some (.awaitStart, 0, 0, 0, .noEvent), some (.awaitStart, 0, 0, 0, .noEvent)] := by decide

/-- T2 and T1: a gap of 101 is a timeout and the late `02` a START; a gap of 100 is in time. -/
theorem test_timeout :
    regs (step (offer 0x02 111 (timed .payload 10))) =
      some (.lenShort, 0, 0, 0, .error .receiveTimeout) ∧
    regs (step (offer 0x01 110 (timed .lenShort 10))) = some (.payload, 1, 0, 0, .noEvent) := by decide

/-- T8, T5: a decreasing sample is refused; no gap is a timeout in `AwaitStart`. -/
theorem test_timeout_refusal :
    step (offer 0x05 40 (timed .payload 50)) = .refused (.timeWentBack 40 50) ∧
    regs (step (offer 0x02 100000 (timed .awaitStart 0))) = some (.lenShort, 0, 0, 0, .noEvent) :=
  ⟨rfl, by decide⟩

/-- R121, R26: the sample 255 fits 8 bits, at 256 the counter has wrapped around. -/
theorem test_timeout_width :
    regs (step (offer 0x02 255 (narrow 0))) = some (.lenShort, 0, 0, 0, .noEvent) ∧
    step (offer 0x02 256 (narrow 0)) = .refused (.timeWrapped 256 8) := ⟨by decide, rfl⟩

/-! ### The encoder (traces of E6, E1, E12) -/

/-- E6 and E12: `02` below 256 bytes, `03` from there on. -/
theorem test_eStart :
    emitted (exec .eStart { enc .eStart [] 0 with elen := 255 }) = some (.eLenShort, [0x02]) ∧
    emitted (exec .eStart { enc .eStart [] 0 with elen := 256 }) = some (.eLenHi, [0x03]) := by decide

/-- E6, E1. -/
theorem test_eLenShort :
    emitted (step (enc .eLenShort [1, 2, 3] 0)) = some (.ePayload, [0x03]) ∧
    emitted (step (enc .eLenShort [] 0)) = some (.eCrcHi, [0x00]) := by decide

/-- E12: the length 256 is `01 00`. -/
theorem test_eLenHi : emitted (exec .eLenHi { enc .eLenHi [] 0 with elen := 256 }) =
    some (.eLenLo, [0x01]) := by decide

/-- E12. -/
theorem test_eLenLo : emitted (exec .eLenLo { enc .eLenLo [] 0 with elen := 256 }) =
    some (.ePayload, [0x00]) := by decide

/-- E6, second and last payload byte. -/
theorem test_ePayload :
    emitted (step (enc .ePayload [0x01, 0x02, 0x03] 1)) = some (.ePayload, [0x02]) ∧
    emitted (step (enc .ePayload [0x01, 0x02, 0x03] 2)) = some (.eCrcHi, [0x03]) := by decide

/-- E6: `61` first. -/
theorem test_eCrcHi : emitted (exec .eCrcHi { enc .eCrcHi [1] 1 with ecrc := 0x6131 }) =
    some (.eCrcLo, [0x61]) := by decide

/-- E6: then `31`. -/
theorem test_eCrcLo : emitted (exec .eCrcLo { enc .eCrcLo [1] 1 with ecrc := 0x6131 }) =
    some (.eEnd, [0x31]) := by decide

/-- E6: the end delimiter, then idle. -/
theorem test_eEnd : emitted (step (enc .eEnd [1] 1)) = some (.eIdle, [0x03]) := by decide

/-- E1, E6. -/
theorem test_encode :
    emitted (exec (.encode []) State.reset) = some (.eIdle, [0x02, 0x00, 0x00, 0x00, 0x03]) ∧
    emitted (exec (.encode [0x01, 0x02, 0x03]) State.reset) =
      some (.eIdle, [0x02, 0x03, 0x01, 0x02, 0x03, 0x61, 0x31, 0x03]) := by decide +kernel

/-! ### The checksum unit (vectors K1 to K17) -/

/-- K16, K13. -/
theorem test_crc16 :
    returned (exec (.crc16 [0xAA, 0xBB]) State.reset) = some 0xE405 ∧
    returned (exec (.crc16 [0x07, 0x55]) State.reset) = some 0x93C7 := by decide +kernel

/-- K1. -/
theorem test_crcInit : returned (exec .crcInit { State.reset with crcOut := 5 }) = some 0x0000 := by
  decide

/-- K3, K4. -/
theorem test_crcByte :
    returned (exec (.crcByte 0x0000 0x01) State.reset) = some 0x1021 ∧
    returned (exec (.crcByte 0x1021 0x02) State.reset) = some 0x1373 := by decide +kernel

/-- R105: the identity. -/
theorem test_crcFinal : returned (exec (.crcFinal 0x6131) State.reset) = some 0x6131 := by decide

/-! ### The boundary (vectors X1 to X7) -/

/-- X4 (the call, whatever the answer) and X3. -/
theorem test_dispatch :
    (called (exec (.dispatch [0x05]) { State.reset with handler := some 9 })).map Prod.fst =
      some [⟨9, 0x05, [], 0⟩] ∧
    called (exec (.dispatch [1, 2, 3]) { State.reset with observer := some 4 }) =
      some ([], [⟨4, .unhandledMessage⟩]) := by
  constructor
  · simp only [exec, execDispatch, dispatchMessage]
    split <;> rfl
  · decide

/-- X6, X7. -/
theorem test_report :
    called (exec (.report .crcError) { State.reset with observer := some 4 }) =
      some ([], [⟨4, .crcError⟩]) ∧
    called (exec (.report .memoryError) State.reset) = some ([], []) := by decide

/-- B10 with an observer: reported inside the byte-step. -/
theorem test_report_in_step :
    called (step (offer 0x41 0 { dec 64 .lenShort 0 0 0 [] with observer := some 4 })) =
      some ([], [⟨4, .memoryError⟩]) := by decide

/-- The buffer after reset has the canonical form. -/
theorem test_reset_memory_wf : State.reset.pb.wf := Memory.wf_nil

/-! ### Witnesses: for each obligation with hypotheses, states and operands that meet them all -/

/-- The invariants of a concrete state without an event, from facts that compute. -/
theorem inv_of {s : State}
    (hd : (s.pb.map Prod.fst = List.range s.bytesConsumed.toNat) ∧
      (s.stage = .payload → s.bytesConsumed < s.targetLength ∧ s.targetLength ≤ s.cfg.maxCapacity) ∧
      (s.stage = .crcHi ∨ s.stage = .crcLo ∨ s.stage = .awaitEnd →
        s.targetLength ≤ s.cfg.maxCapacity ∧ s.bytesConsumed = s.targetLength) ∧
      (s.stage = .awaitStart → s.targetLength = 0 ∧ s.bytesConsumed = 0 ∧ s.crcAccumulator = 0) ∧
      (s.stage = .lenShort ∨ s.stage = .lenHi → s.targetLength = 0 ∧ s.bytesConsumed = 0) ∧
      (s.stage = .lenLo → loOf s.targetLength = 0 ∧ s.bytesConsumed = 0) ∧
      (s.stage = .crcLo → loOf s.crcAccumulator = 0) ∧
      exceededWidth s.cfg s.lastActivityTime = none)
    (he : s.event = .noEvent) (hi : s.estage = .eIdle) (ht : s.txp = []) : CodecInv s := by
  obtain ⟨h1, h2, h3, h4, h5, h6, h7, h8⟩ := hd
  refine ⟨⟨h1, h2, h3, h4, h5, h6, h7, by simp [he], h8, by simp [he]⟩, ⟨fun _ => ht, ?_, ?_, ?_, ?_, ?_⟩⟩ <;>
    simp [hi]

/-- The invariants of a state whose encoder is busy with a payload of one byte. -/
theorem inv_busy : CodecInv (enc .ePayload [0x05] 0) := by
  refine ⟨⟨rfl, ?_, ?_, ?_, ?_, ?_, ?_, ?_, rfl, ?_⟩, ⟨?_, fun _ => ⟨rfl, rfl⟩, ?_, ?_, ?_, fun _ => by decide⟩⟩ <;>
    simp [enc, State.reset, State.resetWith]

theorem test_witness_EncodedOperationsDecodeBack :
    (Instr.dNoise 0x01).wellFormed = true ∧ (Instr.dNoise 0x04).wellFormed = true ∧
      (Instr.dEndBad 0x02).wellFormed = true ∧ (Instr.dispatch [0x05]).wellFormed = true ∧
      (Instr.encode []).wellFormed = true := by decide

theorem test_witness_SelectedOperationsEncodeBack :
    decode (.rx .awaitStart 0x01) = .ok (.dNoise 0x01) ∧
      decode (.rx .awaitEnd 0x03) = .ok .dEndOk ∧ decode (.tx .eStart) = .ok .eStart := by decide

theorem test_witness_StepRunsTheSelectedOperation :
    (∃ (s s1 : State) (b : Byte) (now : Nat) (rest : List Stimulus) (i : Instr),
      s.pending = .rxByte b now :: rest ∧
      exec (.dTimeoutPrologue now) { s with pending := rest, event := .noEvent } = .next s1 ∧
      decode (.rx s1.stage b) = .ok i) ∧
    (∃ (s : State) (rest : List Stimulus) (i : Instr),
      s.pending = .softReset :: rest ∧ decode .softReset = .ok i) ∧
    (∃ (s : State) (rest : List Stimulus) (i : Instr),
      s.pending = .emit :: rest ∧ decode (.tx s.estage) = .ok i) ∧
    (∃ (s : State) (i : Instr), s.pending = [] ∧ decode (.tx s.estage) = .ok i) ∧
    (∃ (s : State) (f : Service) (rest : List Stimulus) (i : Instr),
      s.pending = .invoke f :: rest ∧ decode (.call f) = .ok i) :=
  ⟨⟨offer 0x02 111 (timed .payload 10), _, _, _, _, _, rfl, rfl, rfl⟩,
    ⟨{ State.reset with pending := [.softReset] }, _, _, rfl, rfl⟩,
    ⟨{ enc .eStart [] 0 with pending := [.emit] }, _, _, rfl, rfl⟩,
    ⟨enc .eEnd [] 0, _, rfl, rfl⟩,
    ⟨{ State.reset with pending := [.invoke .crcInit] }, _, _, _, rfl, rfl⟩⟩

theorem test_witness_StartBytesAndNoise : (0x01 : Byte) ≠ 0x02 ∧ (0x01 : Byte) ≠ 0x03 := by decide

/-- The clauses of the short length at capacity 64: 65; 0; 1 and 64. -/
theorem test_witness_ShortLengthByteEntersPayload :
    let s := dec 64 .lenShort 0 0 0 []
    s.cfg.maxCapacity.toNat < (0x41 : Byte).toNat ∧ (0x00 : Byte) = 0 ∧
      ((0x01 : Byte) ≠ 0 ∧ (0x01 : Byte).toNat ≤ s.cfg.maxCapacity.toNat) ∧
      ((0x40 : Byte) ≠ 0 ∧ (0x40 : Byte).toNat ≤ s.cfg.maxCapacity.toNat) := by decide

/-- The clauses of the long length: 256 over a capacity of 255, 0, 256 at a capacity of 256. -/
theorem test_witness_LowLengthByteEntersPayload :
    (loOf (dec 255 .lenLo 0x0100 0 0 []).targetLength = 0 ∧
      (dec 255 .lenLo 0x0100 0 0 []).cfg.maxCapacity.toNat <
        ((dec 255 .lenLo 0x0100 0 0 []).targetLength ||| (0x00 : Byte).setWidth 16).toNat) ∧
    (dec 255 .lenLo 0 0 0 []).targetLength ||| (0x00 : Byte).setWidth 16 = 0 ∧
    ((dec 256 .lenLo 0x0100 0 0 []).targetLength ||| (0x00 : Byte).setWidth 16 ≠ 0 ∧
      ((dec 256 .lenLo 0x0100 0 0 []).targetLength ||| (0x00 : Byte).setWidth 16).toNat ≤
        (dec 256 .lenLo 0x0100 0 0 []).cfg.maxCapacity.toNat) := by decide

theorem test_witness_PayloadByteIsStored :
    let s := dec 3 .payload 3 2 0 [0x01, 0x02]
    s.bytesConsumed < s.targetLength ∧ s.targetLength ≤ s.cfg.maxCapacity := by decide

theorem test_witness_ChecksumBytesAreAssembled :
    loOf (dec 64 .crcLo 3 3 0xFF00 []).crcAccumulator = 0 := by decide

/-- A payload that matches and one that does not, at full capacity; and the empty payload. -/
theorem test_witness_EndByteComparesTheChecksum :
    (∃ (s : State) (p : List Byte), p.length = s.targetLength.toNat ∧
      p.length ≤ s.cfg.maxCapacity.toNat ∧ (∀ i, i < p.length → s.pb.read i = p[i]?) ∧
      crc16 p = s.crcAccumulator) ∧
    (∃ (s : State) (p : List Byte), p.length = s.targetLength.toNat ∧
      p.length ≤ s.cfg.maxCapacity.toNat ∧ (∀ i, i < p.length → s.pb.read i = p[i]?) ∧
      crc16 p ≠ s.crcAccumulator) ∧
    (∃ (s : State) (p : List Byte), p = [] ∧ p.length = s.targetLength.toNat ∧
      p.length ≤ s.cfg.maxCapacity.toNat ∧ crc16 p = s.crcAccumulator) :=
  ⟨⟨dec 1 .awaitEnd 1 1 0x50A5 [0x05], [0x05], by decide +kernel⟩,
    ⟨dec 1 .awaitEnd 1 1 0x50A4 [0x05], [0x05], by decide +kernel⟩,
    ⟨dec 0 .awaitEnd 0 0 0 [], [], by decide⟩⟩

theorem test_witness_WrongEndByteIsAnError : (0x02 : Byte) ≠ 0x03 ∧ (0x04 : Byte) ≠ 0x03 := by decide

theorem test_witness_SoftResetAbandonsTheFrame : ∃ (s : State) (rest : List Stimulus),
    s.pending = .softReset :: rest ∧ s.stage = .payload :=
  ⟨{ dec 64 .payload 3 1 0 [1] with pending := [.softReset] }, _, rfl, rfl⟩

/-- Gap 101 at interval 100; then each way to stay in time, the gap of exactly 100 among them. -/
theorem test_witness_TimeoutPrologueTestsTheGap :
    (let s := timed .lenShort 10;
      s.lastActivityTime ≤ 111 ∧ exceededWidth s.cfg 111 = none ∧ s.cfg.timeoutEn = true ∧ s.stage ≠ .awaitStart ∧
        s.cfg.timeoutInterval < 111 - s.lastActivityTime) ∧
    (let s := dec 64 .lenShort 0 0 0 [];
      s.lastActivityTime ≤ 111 ∧ exceededWidth s.cfg 111 = none ∧ s.cfg.timeoutEn = false) ∧
    (let s := timed .awaitStart 10;
      s.lastActivityTime ≤ 111 ∧ exceededWidth s.cfg 111 = none ∧ s.stage = .awaitStart) ∧
    (let s := narrow 155;
      s.lastActivityTime ≤ 255 ∧ exceededWidth s.cfg 255 = none ∧
        255 - s.lastActivityTime ≤ s.cfg.timeoutInterval) ∧
    (let s := timed .lenShort 10;
      s.lastActivityTime ≤ 110 ∧ exceededWidth s.cfg 110 = none ∧ 110 - s.lastActivityTime ≤ s.cfg.timeoutInterval) := by decide

theorem test_witness_DecreasingTimeIsRefused :
    (∃ (s : State) (now : Nat), now < s.lastActivityTime) ∧
    (∃ (s : State) (b : Byte) (now : Nat) (rest : List Stimulus),
      s.pending = .rxByte b now :: rest ∧ now < s.lastActivityTime) :=
  ⟨⟨timed .payload 50, 49, by decide⟩, ⟨offer 0x05 49 (timed .payload 50), _, _, _, rfl, by decide⟩⟩

/-- A step inside a frame, and the last one of an emission. -/
theorem test_witness_EveryStepKeepsTheInvariants :
    (∃ s t, CodecInv s ∧ step s = .next t ∧ s.stage = .payload) ∧
    (∃ s t, CodecInv s ∧ step s = .next t ∧ s.estage = .ePayload) :=
  ⟨⟨offer 0x03 0 (dec 3 .payload 3 2 0 [0x01, 0x02]), _, inv_of (by decide) rfl rfl rfl, rfl, rfl⟩,
    ⟨enc .ePayload [0x05] 0, _, inv_busy, rfl, rfl⟩⟩

theorem test_witness_EveryByteIsAccepted : ∃ (s : State) (b : Byte) (now : Nat) (rest : List Stimulus),
    CodecInv s ∧ s.pending = .rxByte b now :: rest ∧ s.lastActivityTime ≤ now ∧
      exceededWidth s.cfg now = none :=
  ⟨offer 0x03 0 (dec 0 .awaitEnd 0 0 0 []), _, _, _, inv_of (by decide) rfl rfl rfl, rfl,
    Nat.le_refl 0, rfl⟩

/-- Each of the refusals the statement names does occur. -/
theorem test_witness_OnlyTheEnvironmentsErrorsStop :
    (∃ s, CodecInv s ∧ ∃ now last, step s = .refused (.timeWentBack now last)) ∧
    (∃ s, CodecInv s ∧ ∃ now w, step s = .refused (.timeWrapped now w)) ∧
    (∃ s, CodecInv s ∧ ∃ n, step s = .refused (.payloadTooLong n)) ∧
    (∃ s, CodecInv s ∧ step s = .refused .encoderBusy) ∧
    (∃ s, CodecInv s ∧ step s = .refused .emptyDispatch) := by
  refine ⟨⟨offer 0x05 49 { dec 64 .awaitStart 0 0 0 [] with lastActivityTime := 50 },
      inv_of (by decide) rfl rfl rfl, _, _, rfl⟩,
    ⟨offer 0x02 256 (narrow 255), inv_of (by decide) rfl rfl rfl, _, _, rfl⟩,
    ⟨{ State.reset with pending := [.encodeRequest tooLong] },
      inv_of (by decide) rfl rfl rfl, 65536, ?_⟩,
    ⟨{ enc .ePayload [0x05] 0 with pending := [.encodeRequest []] }, ?_, rfl⟩,
    ⟨{ State.reset with pending := [.invoke (.dispatch [])] },
      inv_of (by decide) rfl rfl rfl, rfl⟩⟩
  · have h : encodeRefusal tooLong State.reset = some (.payloadTooLong 65536) := by
      rw [encodeRefusal, test_tooLong_length]; rfl
    show acceptEncode tooLong State.reset = _
    rw [acceptEncode, h]
  · obtain ⟨⟨h1, h2, h3, h4, h5, h6, h7, h8, h9, h10⟩, ⟨e1, e2, e3, e4, e5, e6⟩⟩ := inv_busy
    exact ⟨⟨h1, h2, h3, h4, h5, h6, h7, h8, h9, h10⟩, ⟨e1, e2, e3, e4, e5, e6⟩⟩

/-- A frame of one byte at a capacity of 1 (E4), and the empty frame at capacity 0 (E1). -/
theorem test_witness_DecodingAnEncodedFrameGivesThePayload :
    (∃ (s : State) (p : List Byte) (times : List Nat), s.stage = .awaitStart ∧
      p.length ≤ s.cfg.maxCapacity.toNat ∧ times.length = (encodeFrame p).length ∧
      FrameInTime s.cfg s.lastActivityTime times ∧ p = [0x05] ∧
      s.pending = rxStream (encodeFrame p) times ++ []) ∧
    (∃ (s : State) (p : List Byte) (times : List Nat), s.stage = .awaitStart ∧
      p.length ≤ s.cfg.maxCapacity.toNat ∧ times.length = (encodeFrame p).length ∧
      FrameInTime s.cfg s.lastActivityTime times ∧ p = [] ∧
      s.pending = rxStream (encodeFrame p) times ++ []) := by
  refine ⟨⟨{ timed .awaitStart 0 with
        pending := rxStream (encodeFrame [0x05]) [999, 1099, 1199, 1299, 1399, 1499] }, [0x05],
      [999, 1099, 1199, 1299, 1399, 1499], rfl, by decide, by decide, ?_, rfl, by simp⟩,
    ⟨{ dec 0 .awaitStart 0 0 0 [] with pending := rxStream (encodeFrame []) [0, 0, 0, 0, 0] }, [],
      [0, 0, 0, 0, 0], rfl, by decide, by decide, ?_, rfl, by simp⟩⟩ <;>
    simp [FrameInTime, SamplesInTime, exceededWidth, timed, dec, State.resetWith]

/-- The frame of [05] with its checksum off by one bit, in both forms. -/
theorem test_witness_WrongChecksumGivesOneCrcError :
    Declares (shortHeader [0x05]) [0x05] ∧ Declares (longHeader [0x05]) [0x05] ∧
      (0x50A4 : Half) ≠ crc16 [0x05] ∧
      (∃ (s : State), s.stage = .awaitStart ∧ [0x05].length ≤ s.cfg.maxCapacity.toNat ∧
        [0, 0, 0, 0, 0, 0].length = (wireFrame (shortHeader [0x05]) [0x05] 0x50A4 0x03).length ∧
        FrameInTime s.cfg s.lastActivityTime [0, 0, 0, 0, 0, 0] ∧
        s.pending =
          rxStream (wireFrame (shortHeader [0x05]) [0x05] 0x50A4 0x03) [0, 0, 0, 0, 0, 0] ++ []) := by
  refine ⟨.inr ⟨rfl, by decide⟩, .inl rfl, by decide +kernel,
    { dec 1 .awaitStart 0 0 0 [] with
      pending := rxStream (wireFrame (shortHeader [0x05]) [0x05] 0x50A4 0x03) [0, 0, 0, 0, 0, 0] },
    rfl, by decide, by decide, ?_, by simp⟩
  simp [FrameInTime, SamplesInTime, exceededWidth, dec, State.resetWith]

/-- The frame of [05] with `04` for the end delimiter (V8). -/
theorem test_witness_WrongEndGivesOneEndByteError :
    (0x04 : Byte) ≠ 0x03 ∧ Declares (shortHeader [0x05]) [0x05] ∧
      (∃ (s : State), s.stage = .awaitStart ∧ [0x05].length ≤ s.cfg.maxCapacity.toNat ∧
        [0, 0, 0, 0, 0, 0].length = (wireFrame (shortHeader [0x05]) [0x05] 0x50A5 0x04).length ∧
        FrameInTime s.cfg s.lastActivityTime [0, 0, 0, 0, 0, 0] ∧
        s.pending =
          rxStream (wireFrame (shortHeader [0x05]) [0x05] 0x50A5 0x04) [0, 0, 0, 0, 0, 0] ++ []) := by
  refine ⟨by decide, .inr ⟨rfl, by decide⟩,
    { dec 1 .awaitStart 0 0 0 [] with
      pending := rxStream (wireFrame (shortHeader [0x05]) [0x05] 0x50A5 0x04) [0, 0, 0, 0, 0, 0] },
    rfl, by decide, by decide, ?_, by simp⟩
  simp [FrameInTime, SamplesInTime, exceededWidth, dec, State.resetWith]

/-- V10 (a length of 3 over a capacity of 2) followed by a good frame, and V12 (256 over 255). -/
theorem test_witness_OverlongLengthGivesOneMemoryError :
    (∃ (s : State), s.stage = .awaitStart ∧ s.cfg.maxCapacity.toNat < (0x03 : Byte).toNat ∧
      FrameInTime s.cfg s.lastActivityTime [0, 0] ∧ [0x01].length ≤ s.cfg.maxCapacity.toNat ∧
      [0, 0, 0, 0, 0, 0].length = (encodeFrame [0x01]).length ∧
      FrameInTime s.cfg s.lastActivityTime [0, 0, 0, 0, 0, 0] ∧
      s.pending = rxStream [0x02, 0x03] [0, 0] ++
        (rxStream (encodeFrame [0x01]) [0, 0, 0, 0, 0, 0] ++ [])) ∧
    (∃ (s : State), s.stage = .awaitStart ∧
      s.cfg.maxCapacity.toNat < 256 * (0x01 : Byte).toNat + (0x00 : Byte).toNat ∧
      FrameInTime s.cfg s.lastActivityTime [0, 0, 0] ∧
      s.pending = rxStream [0x03, 0x01, 0x00] [0, 0, 0] ++ []) := by
  refine ⟨⟨{ dec 2 .awaitStart 0 0 0 [] with
        pending := rxStream [0x02, 0x03] [0, 0] ++
          (rxStream (encodeFrame [0x01]) [0, 0, 0, 0, 0, 0] ++ []) },
      rfl, by decide, ?_, by decide, by decide, ?_, rfl⟩,
    ⟨{ dec 255 .awaitStart 0 0 0 [] with
        pending := rxStream [0x03, 0x01, 0x00] [0, 0, 0] ++ [] }, rfl, by decide, ?_, rfl⟩⟩ <;>
    simp [FrameInTime, SamplesInTime, exceededWidth, dec, State.resetWith]

/-- The empty payload in long form. -/
theorem test_witness_LongFormIsAcceptedForEveryLength :
    ∃ (s : State), s.stage = .awaitStart ∧ ([] : List Byte).length ≤ s.cfg.maxCapacity.toNat ∧
      [0, 0, 0, 0, 0, 0].length = ([] : List Byte).length + 6 ∧
      FrameInTime s.cfg s.lastActivityTime [0, 0, 0, 0, 0, 0] ∧
      s.pending =
        rxStream (wireFrame (longHeader []) [] (crc16 []) 0x03) [0, 0, 0, 0, 0, 0] ++ [] := by
  refine ⟨{ dec 0 .awaitStart 0 0 0 [] with
      pending := rxStream (wireFrame (longHeader []) [] (crc16 []) 0x03) [0, 0, 0, 0, 0, 0] ++ [] },
    rfl, by decide, by decide, ?_, rfl⟩
  simp [FrameInTime, SamplesInTime, exceededWidth, dec, State.resetWith]

/-- A state with the invariants and a byte to take, in each stage; and one whose timeout expires. -/
theorem test_witness_NextStageTable :
    (∀ st : Stage, ∃ s t b now rest, CodecInv s ∧ s.pending = .rxByte b now :: rest ∧
      step s = .next t ∧ s.stage = st ∧ s.cfg.timeoutEn = false) ∧
    (∃ s t b now rest, CodecInv s ∧ s.pending = .rxByte b now :: rest ∧ step s = .next t ∧
      s.cfg.timeoutEn = true ∧ s.stage ≠ .awaitStart ∧
      s.cfg.timeoutInterval < now - s.lastActivityTime) ∧
    (∃ (s : State) (rest : List Stimulus), s.pending = .softReset :: rest) := by
  refine ⟨fun st => ?_, ⟨offer 0x02 111 (timed .lenShort 10), _, _, _, _,
    inv_of (by decide) rfl rfl rfl, rfl, rfl, by decide⟩,
    ⟨{ State.reset with pending := [.softReset] }, _, rfl⟩⟩
  cases st
  · exact ⟨offer 0x04 0 (dec 64 .awaitStart 0 0 0 []), _, _, _, _, inv_of (by decide) rfl rfl rfl,
      rfl, rfl, rfl, rfl⟩
  · exact ⟨offer 0x41 0 (dec 64 .lenShort 0 0 0 []), _, _, _, _, inv_of (by decide) rfl rfl rfl,
      rfl, rfl, rfl, rfl⟩
  · exact ⟨offer 0xFF 0 (dec 64 .lenHi 0 0 0 []), _, _, _, _, inv_of (by decide) rfl rfl rfl,
      rfl, rfl, rfl, rfl⟩
  · exact ⟨offer 0x00 0 (dec 256 .lenLo 0x0100 0 0 []), _, _, _, _,
      inv_of (by decide) rfl rfl rfl, rfl, rfl, rfl, rfl⟩
  · exact ⟨offer 0x03 0 (dec 1 .payload 1 0 0 []), _, _, _, _, inv_of (by decide) rfl rfl rfl,
      rfl, rfl, rfl, rfl⟩
  · exact ⟨offer 0x50 0 (dec 1 .crcHi 1 1 0 [5]), _, _, _, _, inv_of (by decide) rfl rfl rfl,
      rfl, rfl, rfl, rfl⟩
  · exact ⟨offer 0xA5 0 (dec 1 .crcLo 1 1 0x5000 [5]), _, _, _, _, inv_of (by decide) rfl rfl rfl,
      rfl, rfl, rfl, rfl⟩
  · exact ⟨offer 0x03 0 (dec 0 .awaitEnd 0 0 0 []), _, _, _, _, inv_of (by decide) rfl rfl rfl,
      rfl, rfl, rfl, rfl⟩

/-- The late byte would have ended a frame with a wrong end byte. -/
theorem test_witness_TimeoutComesBeforeEveryOtherError :
    ∃ (s : State) (b : Byte) (now : Nat) (rest : List Stimulus),
      s.pending = .rxByte b now :: rest ∧ s.lastActivityTime ≤ now ∧
      exceededWidth s.cfg now = none ∧ s.cfg.timeoutEn = true ∧
      s.stage ≠ .awaitStart ∧ s.cfg.timeoutInterval < now - s.lastActivityTime :=
  ⟨offer 0x04 111 (timed .awaitEnd 10), _, _, _, rfl, by decide⟩

/-- A step that ends with an error, and one that completes a payload. -/
theorem test_witness_TerminalEventsLeaveTheInitialState :
    (∃ s t b now rest, s.pending = .rxByte b now :: rest ∧ step s = .next t ∧
      t.event = .error .endByteError) ∧
    (∃ s t b now rest, s.pending = .rxByte b now :: rest ∧ step s = .next t ∧
      t.event = .completed []) :=
  ⟨⟨offer 0x04 0 (dec 64 .awaitEnd 0 0 0 []), _, _, _, _, rfl, rfl, rfl⟩,
    ⟨offer 0x03 0 (dec 64 .awaitEnd 0 0 0 []), _, _, _, _, rfl, rfl, rfl⟩⟩

theorem test_witness_PayloadAndChecksumBytesAreNotScanned :
    ∀ st, st = Stage.payload ∨ st = .crcHi ∨ st = .crcLo → ∃ (s : State) (now : Nat), CodecInv s ∧
      s.stage = st ∧ s.lastActivityTime ≤ now ∧ exceededWidth s.cfg now = none ∧
      (s.cfg.timeoutEn = true → now - s.lastActivityTime ≤ s.cfg.timeoutInterval) := by
  rintro st (rfl | rfl | rfl)
  · exact ⟨dec 1 .payload 1 0 0 [], 0, inv_of (by decide) rfl rfl rfl, by decide⟩
  · exact ⟨dec 1 .crcHi 1 1 0 [5], 0, inv_of (by decide) rfl rfl rfl, by decide⟩
  · exact ⟨dec 1 .crcLo 1 1 0x5000 [5], 0, inv_of (by decide) rfl rfl rfl, by decide⟩

/-- T7: stamps do not matter. -/
theorem test_witness_EventsDependOnTheBytesAlone :
    ∃ (s u : State) (bytes : List Byte) (times times' : List Nat) (es : List Event),
      s.cfg.timeoutEn = false ∧ times.length = bytes.length ∧ times'.length = bytes.length ∧
      NeverDecreasing s.cfg s.lastActivityTime times' ∧ bytes = [0x02, 0x41] ∧
      runEvents bytes.length { s with pending := rxStream bytes times } = some (u, es) :=
  ⟨dec 64 .awaitStart 0 0 0 [], _, [0x02, 0x41], [0, 0], [0, 99999], _, rfl, rfl, rfl,
    ⟨Nat.zero_le _, rfl, Nat.zero_le _, rfl, trivial⟩, rfl, rfl⟩

theorem test_witness_LastSampleIsNotReadAtRest :
    ∃ (s : State) (b : Byte) (now before : Nat) (rest : List Stimulus), s.stage = .awaitStart ∧
      s.lastActivityTime ≤ now ∧ before ≤ now ∧ exceededWidth s.cfg now = none ∧ s.pending = .rxByte b now :: rest ∧
      before ≠ s.lastActivityTime :=
  ⟨offer 0x02 111 (timed .awaitStart 10), _, _, 0, _, rfl, by decide, by decide, rfl, rfl, by decide⟩

/-- An emission step in the middle of a frame being received. -/
theorem test_witness_SilenceIsNotDetected :
    ∃ s t : State, (∀ b now rest, s.pending ≠ .rxByte b now :: rest) ∧
      (∀ rest, s.pending ≠ .softReset :: rest) ∧ (∀ rest, s.pending ≠ .hardReset :: rest) ∧
      step s = .next t ∧ s.stage = .payload :=
  ⟨{ dec 64 .payload 5 2 0 [1, 2] with pending := [.emit] }, _, by simp, by simp, by simp, rfl, rfl⟩

theorem test_witness_ConfigurationIsConstant : ∃ s t : State, step s = .next t ∧ s.pending ≠ [] :=
  ⟨{ State.reset with pending := [.hardReset] }, _, rfl, by simp⟩

theorem test_witness_BufferStaysCanonical :
    ∃ s t : State, s.pb.wf ∧ step s = .next t ∧ s.pb ≠ t.pb :=
  ⟨offer 0x03 0 (dec 64 .payload 3 2 0 [1, 2]), _, by decide, rfl, by decide⟩

/-- At a capacity of 0, at a buffer that holds nothing, and with no payload. -/
theorem test_witness_AccessesOutsideTheBufferStop :
    (let s := dec 0 .payload 1 0 0 [];
      s.cfg.maxCapacity ≤ s.bytesConsumed) ∧
    (let s := dec 1 .awaitEnd 1 1 0 [];
      s.pb = [] ∧ s.targetLength ≠ 0 ∧ s.cfg.maxCapacity ≠ 0) ∧
    (let s := enc .ePayload [] 0;
      s.txp.length ≤ s.eidx.toNat) := by decide

theorem test_witness_HardwareReset : ∃ (s : State) (rest : List Stimulus),
    s.pending = .hardReset :: rest ∧ s.stage = .payload ∧ s.estage = .ePayload :=
  ⟨{ dec 64 .payload 3 1 0 [1] with pending := [.hardReset], estage := .ePayload }, _, rfl, rfl, rfl⟩

theorem test_witness_IdleStepChangesNothing :
    ∃ s : State, s.pending = [] ∧ s.estage = .eIdle ∧ s.stage = .payload :=
  ⟨dec 64 .payload 3 1 0 [1], rfl, rfl, rfl⟩

theorem test_witness_RegistrationIsLastWriteWins :
    (∃ (s : State) (h : Nat) (rest : List Stimulus),
      s.pending = .registerHandler h :: rest ∧ s.handler ≠ none) ∧
    (∃ (s : State) (o : Nat) (rest : List Stimulus),
      s.pending = .registerObserver o :: rest ∧ s.observer ≠ none) :=
  ⟨⟨{ State.reset with handler := some 1, pending := [.registerHandler 2] }, _, _, rfl, by decide⟩,
    ⟨{ State.reset with observer := some 1, pending := [.registerObserver 2] }, _, _, rfl, by decide⟩⟩

theorem test_witness_DispatchCallsTheHandler :
    (∃ s : State, s.handler = none ∧ s.observer = none) ∧
    (∃ (s : State) (o : Nat), s.handler = none ∧ s.observer = some o) ∧
    (∃ (s : State) (h : Nat), s.handler = some h) :=
  ⟨⟨State.reset, rfl, rfl⟩, ⟨{ State.reset with observer := some 4 }, _, rfl, rfl⟩,
    ⟨{ State.reset with handler := some 9 }, _, rfl⟩⟩

theorem test_witness_ReportCallsTheObserver :
    (∃ s : State, s.observer = none) ∧ ∃ (s : State) (o : Nat), s.observer = some o :=
  ⟨⟨State.reset, rfl⟩, ⟨{ State.reset with observer := some 4 }, _, rfl⟩⟩

/-- An error with an observer, a payload of one byte with a handler and an observer, one without a
handler, no event, an empty payload. -/
theorem test_witness_EveryEventIsHandledOnceInItsStep :
    (∃ s t b now rest, s.pending = .rxByte b now :: rest ∧ step s = .next t ∧
      t.event = .error .memoryError ∧ s.observer = some 4) ∧
    (∃ s t b now rest, s.pending = .rxByte b now :: rest ∧ step s = .next t ∧
      t.event = .completed [0x00] ∧ s.handler = some 9 ∧ s.observer = some 4) ∧
    (∃ s t b now rest, s.pending = .rxByte b now :: rest ∧ step s = .next t ∧
      t.event = .completed [0x00] ∧ s.handler = none ∧ s.observer = some 4) ∧
    (∃ s t b now rest, s.pending = .rxByte b now :: rest ∧ step s = .next t ∧
      t.event = .noEvent) ∧
    (∃ s t b now rest, s.pending = .rxByte b now :: rest ∧ step s = .next t ∧
      t.event = .completed []) := by
  refine ⟨⟨offer 0x41 0 { dec 64 .lenShort 0 0 0 [] with observer := some 4 }, _, _, _, _, rfl, rfl,
      rfl, rfl⟩,
    ⟨offer 0x03 0 { dec 64 .awaitEnd 1 1 0 [0x00] with handler := some 9, observer := some 4 },
      ?_⟩,
    ⟨offer 0x03 0 { dec 64 .awaitEnd 1 1 0 [0x00] with observer := some 4 }, _, _, _, _, rfl, rfl, rfl,
      rfl, rfl⟩,
    ⟨offer 0x02 0 State.reset, _, _, _, _, rfl, rfl, rfl⟩,
    ⟨offer 0x03 0 (dec 64 .awaitEnd 0 0 0 []), _, _, _, _, rfl, rfl, rfl⟩⟩
  refine ⟨dispatchMessage 0x00 [] { dec 64 .awaitStart 0 0 0 [] with
      handler := some 9, observer := some 4, event := .completed [0x00] }, _, _, _, rfl, rfl, ?_, rfl,
    rfl⟩
  unfold dispatchMessage
  split <;> rfl

theorem test_witness_UnhandledMessageIsNotTheBlocks :
    (∃ s t : State, s.event ≠ .error .unhandledMessage ∧ step s = .next t ∧ t.event ≠ .noEvent) ∧
    (∃ (s t : State) (p : List Byte), exec (.dispatch p) s = .next t) :=
  ⟨⟨offer 0x41 0 (dec 64 .lenShort 0 0 0 []), _, by decide, rfl, by decide⟩,
    ⟨State.reset, _, [0x05], rfl⟩⟩

theorem test_witness_HeaderEmissionSteps :
    ({ State.reset with elen := 255 } : State).elen.toNat < 256 ∧
      256 ≤ ({ State.reset with elen := 256 } : State).elen.toNat := by decide

theorem test_witness_PayloadEmissionStep :
    let s := enc .ePayload [0x01, 0x02] 1
    s.txp[s.eidx.toNat]? = some 0x02 ∧ s.eidx < s.elen := by decide

theorem test_witness_RequestStartsTheSequencer :
    ∃ (s : State) (p : List Byte) (rest : List Stimulus),
      s.pending = .encodeRequest p :: rest ∧ p.length ≤ 65535 ∧ s.estage = .eIdle :=
  ⟨{ State.reset with pending := [.encodeRequest [0x05]] }, _, _, rfl, by decide, rfl⟩

/-- The two forms meet at 255 and 256. -/
theorem test_witness_EncodePushesTheFrame :
    (∃ p : List Byte, p.length ≤ 65535 ∧ p.length < 256 ∧ p.length = 255) ∧
    (∃ p : List Byte, p.length ≤ 65535 ∧ 256 ≤ p.length ∧ p.length = 256) ∧
    State.reset.estage = .eIdle :=
  ⟨⟨List.replicate 255 0, by rw [List.length_replicate]; decide⟩,
    ⟨List.replicate 256 0, by rw [List.length_replicate]; decide⟩, rfl⟩

theorem test_witness_EncodeRefusesLongPayloadsAndBusyRequests :
    (∃ (s : State) (p : List Byte) (rest : List Stimulus),
      65535 < p.length ∧ s.pending = .encodeRequest p :: rest) ∧
    (∃ (s : State) (p : List Byte) (rest : List Stimulus), p.length ≤ 65535 ∧ s.estage ≠ .eIdle ∧
      s.pending = .encodeRequest p :: rest) :=
  ⟨⟨{ State.reset with pending := [.encodeRequest tooLong] }, tooLong, [],
      by rw [test_tooLong_length]; decide, rfl⟩,
    ⟨{ enc .eEnd [] 0 with pending := [.encodeRequest []] }, [], [], by decide, by decide, rfl⟩⟩

theorem test_witness_EmissionStepsMakeUpEncode :
    [0x01].length ≤ 65535 ∧ State.reset.estage = .eIdle := by decide

theorem test_witness_EmissionStepsPushOneTableByte :
    ∀ e, e ≠ EStage.eIdle → ∃ (i : Instr) (s t : State), encode i = .tx e ∧ exec i s = .next t := by
  intro e he
  cases e
  · exact absurd rfl he
  · exact ⟨.eStart, enc .eStart [] 0, _, rfl, rfl⟩
  · exact ⟨.eLenShort, enc .eLenShort [] 0, _, rfl, rfl⟩
  · exact ⟨.eLenHi, State.reset, _, rfl, rfl⟩
  · exact ⟨.eLenLo, State.reset, _, rfl, rfl⟩
  · exact ⟨.ePayload, enc .ePayload [0x05] 0, _, rfl, rfl⟩
  · exact ⟨.eCrcHi, State.reset, _, rfl, rfl⟩
  · exact ⟨.eCrcLo, State.reset, _, rfl, rfl⟩
  · exact ⟨.eEnd, State.reset, _, rfl, rfl⟩

theorem test_witness_EncodedFramesAreCanonicalAndDistinct :
    ∃ p q : List Byte, p.length ≤ 65535 ∧ q.length ≤ 65535 ∧ encodeFrame p = encodeFrame q :=
  ⟨[0x05], [0x05], by decide, by decide, rfl⟩

theorem test_witness_DecoderOperationsLeaveTheEncoder :
    (∃ (s t : State) (st : Stage) (b : Byte),
      encode (.dLenHi b) = .rx st b ∧ exec (.dLenHi b) s = .next t) ∧
    (∃ s t : State, encode .dReset = .softReset ∧ exec .dReset s = .next t) ∧
    (∃ (s t : State) (now : Nat), encode (.dTimeoutPrologue now) = .timeSample now ∧
      exec (.dTimeoutPrologue now) s = .next t) :=
  ⟨⟨State.reset, _, _, 1, rfl, rfl⟩, ⟨State.reset, _, rfl, rfl⟩, ⟨State.reset, _, 0, rfl, rfl⟩⟩

theorem test_witness_DecoderAndEncoderOperationsCommute :
    (∃ s s1 s2 : State, encode (.dLenHi 1) = .rx .lenHi 1 ∧ encode .eCrcHi = .tx .eCrcHi ∧
      exec (.dLenHi 1) s = .next s1 ∧ exec .eCrcHi s = .next s2) ∧
    (∃ s s1 s2 : State, encode .dReset = .softReset ∧ exec .dReset s = .next s1 ∧
      exec (.encode []) s = .next s2) :=
  ⟨⟨State.reset, _, _, rfl, rfl, rfl, rfl⟩, ⟨State.reset, _, _, rfl, rfl, rfl⟩⟩

/-- At the bound: 256 needs a ninth bit, 255 does not. -/
theorem test_witness_WrappedTimeIsRefused :
    (∃ (s : State) (b : Byte) (now : Nat) (rest : List Stimulus) (w : Nat),
      s.pending = .rxByte b now :: rest ∧ s.lastActivityTime ≤ now ∧ s.cfg.timeWidth = some w ∧
      2 ^ w ≤ now ∧ now = 256) ∧
    (∃ (s : State) (now : Nat), s.lastActivityTime ≤ now ∧ s.cfg.timeWidth = none) ∧
    (∃ (s : State) (now w : Nat), s.lastActivityTime ≤ now ∧ s.cfg.timeWidth = some w ∧ now < 2 ^ w ∧
      now = 255) :=
  ⟨⟨offer 0x02 256 (narrow 255), _, _, _, 8, rfl, by decide, rfl, by decide, rfl⟩,
    ⟨timed .payload 50, 50, by decide, rfl⟩, ⟨narrow 255, 255, 8, by decide, rfl, by decide, rfl⟩⟩

end Sys2Proof.Tests
end

/-! ### The configuration (R6): no operation writes it -/

namespace Sys2Proof.Machine

theorem afterPrologue_cfg (now : Nat) (s : State) : (afterPrologue now s).cfg = s.cfg :=
  (congrArg State.cfg (afterPrologue_frame now s) :)

theorem byteBody_cfg {s t : State} {b : Byte} (h : byteBody b s = .next t) : t.cfg = s.cfg :=
  (congrArg State.cfg (byteBody_frame h) :)

theorem emitStep_cfg {s t : State} (h : emitStep s = .next t) : t.cfg = s.cfg :=
  (congrArg State.cfg (emitStep_frame h) :)

theorem hardReset_cfg (s : State) : (hardReset s).cfg = s.cfg := rfl

/-- Everything an ENCODE request can do when it is accepted (R88, R98, R99). -/
theorem acceptEncode_next_iff {p : List Byte} {s t : State} :
    acceptEncode p s = .next t ↔ encodeRefusal p s = none ∧
      t = { s with
        txp := p, elen := lengthHalf p, eidx := 0, ecrc := crc16 p, estage := .eStart } := by
  unfold acceptEncode
  split <;> simp [*, eq_comm]

/-- Everything the whole operation `ENCODE` can do when it goes on (R88, R98, R99). -/
theorem execEncode_next_iff {p : List Byte} {s t : State} :
    execEncode p s = .next t ↔ encodeRefusal p s = none ∧
      t = encoderIdle { s with sink := s.sink ++ encodeFrame p } := by
  unfold execEncode
  split <;> simp [*, eq_comm]

theorem acceptEncode_cfg {p : List Byte} {s t : State} (h : acceptEncode p s = .next t) :
    t.cfg = s.cfg :=
  (congrArg State.cfg (acceptEncode_next_iff.1 h).2 :)

theorem call_cfg {f : Service} {s t : State} (h : exec (decodeCall f) s = .next t) :
    t.cfg = s.cfg := by
  obtain ⟨p, -, hp⟩ | ht := call_frame h
  · exact (congrArg State.cfg (execEncode_next_iff.1 hp).2 :)
  · exact (congrArg State.cfg ht :)

/-- Whatever moves, the encoder's turn or a stimulus of the environment, the configuration stays. -/
theorem step_cfg {s t : State} (h : step s = .next t) : t.cfg = s.cfg := by
  obtain ⟨-, hemit⟩ | ⟨x, rest, -, hx⟩ := step_cases h
  · exact emitStep_cfg hemit
  · obtain ⟨b, now, -, -, -, u, hc, oc, hbody, -, rfl⟩ | ⟨-, rfl⟩ | ⟨-, rfl⟩ | ⟨p, -, hencode⟩ |
      ⟨-, hemit⟩ | ⟨f, -, hcall⟩ | ⟨n, -, rfl⟩ | ⟨n, -, rfl⟩ := hx
    · exact (byteBody_cfg hbody).trans (afterPrologue_cfg now _)
    · exact clear_cfg _
    · exact hardReset_cfg _
    · exact (acceptEncode_cfg hencode :)
    · exact (emitStep_cfg hemit :)
    · exact (call_cfg hcall :)
    · rfl
    · rfl

/-- Settles O33, by the cases of a step: each part of one leaves the configuration as it is. -/
theorem configurationIsConstant : Obligations.ConfigurationIsConstant := fun _ _ h => step_cfg h

end Sys2Proof.Machine

/-! ### The invariants of the decoder (R16), stage by stage -/

namespace Sys2Proof.Machine

/-- What R16 says of the registers in the current stage. -/
abbrev StageFacts (s : State) : Prop :=
  match s.stage with
  | .awaitStart => s.targetLength = 0 ∧ s.bytesConsumed = 0 ∧ s.crcAccumulator = 0
  | .lenShort | .lenHi => s.targetLength = 0 ∧ s.bytesConsumed = 0
  | .lenLo => loOf s.targetLength = 0 ∧ s.bytesConsumed = 0
  | .payload => s.bytesConsumed < s.targetLength ∧ s.targetLength ≤ s.cfg.maxCapacity
  | .crcHi | .awaitEnd => s.targetLength ≤ s.cfg.maxCapacity ∧ s.bytesConsumed = s.targetLength
  | .crcLo => (s.targetLength ≤ s.cfg.maxCapacity ∧ s.bytesConsumed = s.targetLength) ∧
      loOf s.crcAccumulator = 0

/-- The invariants of the output event and of the time, which hold in every stage (R26, R31, R111). -/
structure OutputInv (cfg : CodecConfig) (lastActivityTime : Nat) (event : Event) : Prop where
  ownKinds : event ≠ .error .unhandledMessage
  timeWidth : exceededWidth cfg lastActivityTime = none
  ownPayloads : ∀ p, event = .completed p → p.length ≤ cfg.maxCapacity.toNat

theorem decoderInv_iff {s : State} :
    DecoderInv s ↔ s.pb.map Prod.fst = List.range s.bytesConsumed.toNat ∧ StageFacts s ∧
      OutputInv s.cfg s.lastActivityTime s.event := by
  constructor
  · rintro ⟨hbuf, hpay, hrec, hrest, hno, hhalf, hcrc, hkind, htime, hown⟩
    refine ⟨hbuf, ?_, hkind, htime, hown⟩
    cases hs : s.stage <;> simp_all [StageFacts]
  · rintro ⟨hbuf, hfacts, hkind, htime, hown⟩
    exact {
      buffer := hbuf
      payload := fun hs => by simpa only [StageFacts, hs] using hfacts
      received := by rintro (hs | hs | hs) <;> simp_all only [StageFacts, and_self]
      resting := fun hs => by simpa only [StageFacts, hs] using hfacts
      noLength := by rintro (hs | hs) <;> simpa only [StageFacts, hs] using hfacts
      halfLength := fun hs => by simpa only [StageFacts, hs] using hfacts
      halfChecksum := fun hs => by simp_all only [StageFacts]
      ownKinds := hkind
      timeWidth := htime
      ownPayloads := hown }

theorem DecoderInv.output {s : State} (h : DecoderInv s) :
    OutputInv s.cfg s.lastActivityTime s.event :=
  ⟨h.ownKinds, h.timeWidth, h.ownPayloads⟩

theorem DecoderInv.pb_eq_nil {s : State} (h : DecoderInv s) (hb : s.bytesConsumed = 0) :
    s.pb = [] := by
  simpa [hb] using h.buffer

/-- A cleared decoder has the invariants if its output has them (R116). -/
theorem clear_decoderInv {s : State} (h : OutputInv s.cfg s.lastActivityTime s.event) :
    DecoderInv (clear s) :=
  decoderInv_iff.2 ⟨rfl, ⟨rfl, rfl, rfl⟩, h⟩

theorem OutputInv.noEvent {cfg : CodecConfig} {last : Nat} (h : exceededWidth cfg last = none) :
    OutputInv cfg last .noEvent :=
  ⟨nofun, h, nofun⟩

/-- Raising one of the decoder's own kinds leads to the invariants (R111, R116). -/
theorem raiseError_decoderInv {k : ErrorKind} {s : State} (hk : k ≠ .unhandledMessage)
    (hw : exceededWidth s.cfg s.lastActivityTime = none) : DecoderInv (raiseError k s) :=
  clear_decoderInv ⟨by simpa using hk, hw, nofun⟩

/-- Completing a payload within the capacity leads to the invariants (R31, R73). -/
theorem complete_decoderInv {p : List Byte} {s : State}
    (hp : p.length ≤ s.cfg.maxCapacity.toNat)
    (hw : exceededWidth s.cfg s.lastActivityTime = none) : DecoderInv (complete p s) :=
  clear_decoderInv ⟨nofun, hw, fun _ he => Event.completed.inj he ▸ hp⟩

/-- A counter below a bound does not wrap around at its next value. -/
theorem toNat_succ_of_lt {a b : Half} (h : a < b) : (a + 1).toNat = a.toNat + 1 := by
  bv_omega

theorem succ_lt_of_lt_of_ne {a b : Half} (h : a < b) (hne : a + 1 ≠ b) : a + 1 < b := by
  bv_omega

/-- Payload entry over an empty buffer (R69). -/
theorem enterPayload_decoderInv {s : State} (hpb : s.pb = [])
    (ho : OutputInv s.cfg s.lastActivityTime s.event) : DecoderInv (enterPayload s) := by
  rw [enterPayload_eq]
  split
  next => exact raiseError_decoderInv nofun ho.timeWidth
  next hcap =>
    have hle : s.targetLength ≤ s.cfg.maxCapacity := BitVec.not_lt.1 hcap
    split
    next hzero => exact decoderInv_iff.2 ⟨by simp [hpb], ⟨hle, hzero.symm⟩, ho⟩
    next hne =>
      exact decoderInv_iff.2 ⟨by simp [hpb], ⟨(BitVec.pos_iff_ne_zero _).2 hne, hle⟩, ho⟩

/-- The byte written at index `bytesConsumed` is the buffer's next one (R70). -/
theorem DecoderInv.keys_write {s : State} (h : DecoderInv s) (b : Byte) :
    (s.pb.write s.bytesConsumed.toNat b).map Prod.fst =
      List.range (s.bytesConsumed.toNat + 1) := by
  have happend := Memory.write_above b (m := s.pb) (a := s.bytesConsumed.toNat) (by simp [h.buffer])
  rw [happend, List.map_append, h.buffer, List.range_succ]
  rfl

theorem execDPayload_decoderInv {b : Byte} {s t : State} (h : DecoderInv s)
    (hs : s.stage = .payload) (ht : execDPayload b s = .next t) : DecoderInv t := by
  obtain ⟨hlt, hle⟩ := h.payload hs
  have hkeys := h.keys_write b
  rw [← toNat_succ_of_lt hlt] at hkeys
  rw [execDPayload_eq, if_pos (show s.bytesConsumed < s.cfg.maxCapacity by bv_omega)] at ht
  by_cases hlast : s.bytesConsumed + 1 = s.targetLength
  · rw [if_pos hlast] at ht
    cases ht
    exact decoderInv_iff.2 ⟨hkeys, ⟨hle, hlast⟩, h.output⟩
  · rw [if_neg hlast] at ht
    cases ht
    exact decoderInv_iff.2 ⟨hkeys, ⟨succ_lt_of_lt_of_ne hlt hlast, hle⟩, h.output⟩

/-- `D.END_OK` reports a payload of `targetLength` bytes, or a checksum error (R73). -/
theorem execDEndOk_decoderInv {s t : State} (h : DecoderInv s) (hs : s.stage = .awaitEnd)
    (ht : execDEndOk s = .next t) : DecoderInv t := by
  obtain ⟨hle, hall⟩ := h.received (.inr (.inr hs))
  have hcap : s.targetLength.toNat ≤ s.cfg.maxCapacity.toNat := hle
  obtain ⟨p, hp, rfl⟩ := execDEndOk_next_iff.1 ht
  obtain ⟨q, hq, hlen⟩ := readRange_total (s := s) (a := 0) (n := s.targetLength.toNat) (by omega)
    fun i hi => by simpa [h.buffer, hall] using hi
  obtain rfl : q = p := Except.ok.inj (hq.symm.trans hp)
  split
  · exact complete_decoderInv (hlen ▸ hcap) h.timeWidth
  · exact raiseError_decoderInv nofun h.timeWidth

/-- The body of a byte-step keeps the invariants of the decoder, in every stage. -/
theorem byteBody_decoderInv {b : Byte} {s t : State} (h : DecoderInv s)
    (ht : byteBody b s = .next t) : DecoderInv t := by
  rw [byteBody_eq] at ht
  cases hs : s.stage <;> simp only [hs] at ht
  case awaitStart =>
    obtain ⟨hlen, hcount, -⟩ := h.resting hs
    split at ht
    · cases ht
      exact decoderInv_iff.2 ⟨h.buffer, ⟨hlen, hcount⟩, h.output⟩
    · split at ht <;> cases ht
      · exact decoderInv_iff.2 ⟨h.buffer, ⟨hlen, hcount⟩, h.output⟩
      · exact h
  case lenShort =>
    cases ht
    exact enterPayload_decoderInv (h.pb_eq_nil (h.noLength (.inl hs)).2) h.output
  case lenHi =>
    cases ht
    exact decoderInv_iff.2 ⟨h.buffer, ⟨loOf_highByte b, (h.noLength (.inr hs)).2⟩, h.output⟩
  case lenLo =>
    cases ht
    exact enterPayload_decoderInv (h.pb_eq_nil (h.halfLength hs).2) h.output
  case payload => exact execDPayload_decoderInv h hs ht
  case crcHi =>
    cases ht
    exact decoderInv_iff.2 ⟨h.buffer, ⟨h.received (.inl hs), loOf_highByte b⟩, h.output⟩
  case crcLo =>
    cases ht
    exact decoderInv_iff.2 ⟨h.buffer, h.received (.inr (.inl hs)), h.output⟩
  case awaitEnd =>
    split at ht
    · exact execDEndOk_decoderInv h hs ht
    · cases ht
      exact raiseError_decoderInv nofun h.timeWidth

/-- The prologue keeps the invariants when its sample fits `TIME_WIDTH` (R62, R26). -/
theorem afterPrologue_decoderInv {now : Nat} {s : State} (h : DecoderInv s)
    (hw : exceededWidth s.cfg now = none) : DecoderInv (afterPrologue now s) := by
  obtain ⟨hbuf, hfacts, -⟩ := decoderInv_iff.1 h
  unfold afterPrologue
  split
  · exact raiseError_decoderInv (s := { s with lastActivityTime := now }) nofun hw
  · exact decoderInv_iff.2 ⟨hbuf, hfacts, .noEvent hw⟩

/-! ### The invariants of the sequencer (R29, R90 to R97), state by state -/

/-- The encoder holds a payload with its length and its checksum (R29). -/
def Loaded (txp : List Byte) (elen ecrc : Half) : Prop :=
  txp.length = elen.toNat ∧ ecrc = crc16 txp

/-- What is known in the current state of the sequencer. -/
abbrev SequencerFacts (s : State) : Prop :=
  match s.estage with
  | .eIdle => s.txp = []
  | .eStart => Loaded s.txp s.elen s.ecrc ∧ s.eidx = 0
  | .eLenShort => Loaded s.txp s.elen s.ecrc ∧ s.eidx = 0 ∧ s.elen < 256
  | .eLenHi | .eLenLo => Loaded s.txp s.elen s.ecrc ∧ s.eidx = 0 ∧ 256 ≤ s.elen
  | .ePayload => Loaded s.txp s.elen s.ecrc ∧ s.eidx < s.elen
  | .eCrcHi | .eCrcLo | .eEnd => Loaded s.txp s.elen s.ecrc

theorem encoderInv_iff {s : State} : EncoderInv s ↔ SequencerFacts s := by
  constructor
  · rintro ⟨hidle, hbusy, hheader, hshort, hlong, hbody⟩
    have hload : s.estage ≠ .eIdle → Loaded s.txp s.elen s.ecrc := hbusy
    cases he : s.estage <;> simp_all [SequencerFacts]
  · intro h
    have hload : s.estage ≠ .eIdle → Loaded s.txp s.elen s.ecrc := by
      cases he : s.estage <;> simp_all [SequencerFacts]
    exact {
      idle := fun he => by simpa only [SequencerFacts, he] using h
      busy := hload
      header := by rintro (he | he | he | he) <;> simp_all only [SequencerFacts]
      short := fun he => by simp_all only [SequencerFacts]
      long := by rintro (he | he) <;> simp_all only [SequencerFacts]
      body := fun he => by simp_all only [SequencerFacts] }

theorem encoderIdle_encoderInv (s : State) : EncoderInv (encoderIdle s) :=
  encoderInv_iff.2 rfl

/-- An accepted request loads the encoder (R29, R98). -/
theorem acceptEncode_encoderInv {p : List Byte} {s t : State}
    (ht : acceptEncode p s = .next t) : EncoderInv t := by
  obtain ⟨hmeaning, rfl⟩ := acceptEncode_next_iff.1 ht
  obtain ⟨hlen, -⟩ := encodeRefusal_eq_none_iff.1 hmeaning
  exact encoderInv_iff.2 ⟨⟨(toNat_lengthHalf hlen).symm, rfl⟩, rfl⟩

/-- An emission step keeps the invariants of the sequencer, in every state of it. -/
theorem emitStep_encoderInv {s t : State} (h : EncoderInv s) (ht : emitStep s = .next t) :
    EncoderInv t := by
  have hfacts := encoderInv_iff.1 h
  rw [emitStep_eq] at ht
  cases he : s.estage <;> simp only [SequencerFacts, he] at ht hfacts
  case eIdle => cases ht; exact h
  case eStart =>
    obtain ⟨hload, hidx⟩ := hfacts
    simp only [execEStart, shortForm, decide_eq_true_eq] at ht
    split at ht <;> cases ht
    next hshort => exact encoderInv_iff.2 ⟨hload, hidx, hshort⟩
    next hlong => exact encoderInv_iff.2 ⟨hload, hidx, BitVec.not_lt.1 hlong⟩
  case eLenShort =>
    obtain ⟨hload, hidx, -⟩ := hfacts
    by_cases hzero : s.elen = 0
    · rw [execELenShort, if_pos hzero] at ht
      cases ht
      exact encoderInv_iff.2 hload
    · rw [execELenShort, if_neg hzero] at ht
      cases ht
      exact encoderInv_iff.2 ⟨hload, show s.eidx < s.elen by bv_omega⟩
  case eLenHi => cases ht; exact encoderInv_iff.2 hfacts
  case eLenLo =>
    obtain ⟨hload, hidx, hlong⟩ := hfacts
    cases ht
    exact encoderInv_iff.2 ⟨hload, show s.eidx < s.elen by bv_omega⟩
  case ePayload =>
    obtain ⟨hload, hlt⟩ := hfacts
    rw [execEPayload_eq] at ht
    by_cases hlast : s.eidx + 1 = s.elen
    · rw [if_pos hlast] at ht
      split at ht <;> cases ht
      exact encoderInv_iff.2 hload
    · rw [if_neg hlast] at ht
      split at ht <;> cases ht
      exact encoderInv_iff.2 ⟨hload, succ_lt_of_lt_of_ne hlt hlast⟩
  case eCrcHi => cases ht; exact encoderInv_iff.2 hfacts
  case eCrcLo => cases ht; exact encoderInv_iff.2 hfacts
  case eEnd => cases ht; exact encoderIdle_encoderInv _

/-! ### The invariants of the machine: at reset, and along every step -/

/-- The fields the decoder's invariants speak of. -/
def decoderPart (s : State) :=
  (s.stage, s.targetLength, s.bytesConsumed, s.crcAccumulator, s.pb, s.lastActivityTime, s.event,
    s.cfg)

/-- The fields the encoder's invariants speak of. -/
def encoderPart (s : State) := (s.estage, s.elen, s.eidx, s.ecrc, s.txp)

theorem DecoderInv.congr {s t : State} (h : DecoderInv s) (hst : decoderPart t = decoderPart s) :
    DecoderInv t := by
  obtain ⟨hbuf, hfacts, hout⟩ := decoderInv_iff.1 h
  cases s
  cases t
  cases hst
  exact decoderInv_iff.2 ⟨hbuf, hfacts, hout⟩

theorem EncoderInv.congr {s t : State} (h : EncoderInv s) (hst : encoderPart t = encoderPart s) :
    EncoderInv t := by
  have hfacts := encoderInv_iff.1 h
  cases s
  cases t
  cases hst
  exact encoderInv_iff.2 hfacts

/-- The environment's slots and records, the sink and the pending stimuli are free. -/
theorem CodecInv.congr {s t : State} (h : CodecInv s) (hd : decoderPart t = decoderPart s)
    (he : encoderPart t = encoderPart s) : CodecInv t :=
  ⟨h.decoder.congr hd, h.encoder.congr he⟩

theorem byteBody_encoderPart {b : Byte} {s t : State} (h : byteBody b s = .next t) :
    encoderPart t = encoderPart s :=
  (congrArg encoderPart (byteBody_frame h) :)

theorem afterPrologue_encoderPart (now : Nat) (s : State) :
    encoderPart (afterPrologue now s) = encoderPart s :=
  (congrArg encoderPart (afterPrologue_frame now s) :)

theorem emitStep_decoderPart {s t : State} (h : emitStep s = .next t) :
    decoderPart t = decoderPart s :=
  (congrArg decoderPart (emitStep_frame h) :)

theorem acceptEncode_decoderPart {p : List Byte} {s t : State} (h : acceptEncode p s = .next t) :
    decoderPart t = decoderPart s :=
  (congrArg decoderPart (acceptEncode_next_iff.1 h).2 :)

theorem emitStep_codecInv {s t : State} (h : CodecInv s) (ht : emitStep s = .next t) :
    CodecInv t :=
  ⟨h.decoder.congr (emitStep_decoderPart ht), emitStep_encoderInv h.encoder ht⟩

theorem call_codecInv {f : Service} {s t : State} (h : CodecInv s)
    (ht : exec (decodeCall f) s = .next t) : CodecInv t := by
  obtain ⟨p, -, hp⟩ | hframe := call_frame ht
  · obtain ⟨-, rfl⟩ := execEncode_next_iff.1 hp
    exact ⟨h.decoder.congr rfl, encoderIdle_encoderInv _⟩
  · exact h.congr (congrArg decoderPart hframe :) (congrArg encoderPart hframe :)

theorem hardReset_codecInv (s : State) : CodecInv (hardReset s) :=
  ⟨(clear_decoderInv (s := { s with event := .noEvent, lastActivityTime := 0 })
      (.noEvent (exceededWidth_zero _))).congr rfl, encoderIdle_encoderInv _⟩

/-- A byte-step as `step_cases` gives it: prologue, body, and the two records of the reaction. -/
theorem byteStep_codecInv {s u t : State} {b : Byte} {now : Nat} {hc : List HandlerCall}
    {oc : List ObserverCall} (h : CodecInv s) (hw : exceededWidth s.cfg now = none)
    (hbody : byteBody b (afterPrologue now s) = .next u)
    (ht : t = { u with handlerCalls := hc, observerCalls := oc }) : CodecInv t := by
  subst ht
  have hdec := byteBody_decoderInv (afterPrologue_decoderInv h.decoder hw) hbody
  have henc := (byteBody_encoderPart hbody).trans (afterPrologue_encoderPart now s)
  exact ⟨hdec.congr rfl, h.encoder.congr henc⟩

theorem step_codecInv {s t : State} (h : CodecInv s) (ht : step s = .next t) : CodecInv t := by
  obtain ⟨-, hemit⟩ | ⟨x, rest, -, hx⟩ := step_cases ht
  · exact emitStep_codecInv h hemit
  have hrest : CodecInv { s with pending := rest } := h.congr rfl rfl
  obtain ⟨b, now, -, -, hw, u, hc, oc, hbody, -, ht⟩ | ⟨-, rfl⟩ | ⟨-, rfl⟩ | ⟨p, -, hencode⟩ |
    ⟨-, hemit⟩ | ⟨f, -, hcall⟩ | ⟨n, -, rfl⟩ | ⟨n, -, rfl⟩ := hx
  · exact byteStep_codecInv hrest hw hbody ht
  · exact ⟨clear_decoderInv (.noEvent h.decoder.timeWidth), h.encoder.congr rfl⟩
  · exact hardReset_codecInv _
  · exact ⟨hrest.decoder.congr (acceptEncode_decoderPart hencode), acceptEncode_encoderInv hencode⟩
  · exact emitStep_codecInv hrest hemit
  · exact call_codecInv hrest hcall
  · exact h.congr rfl rfl
  · exact h.congr rfl rfl

theorem resetWith_codecInv (cfg : CodecConfig) : CodecInv (State.resetWith cfg) :=
  ⟨decoderInv_iff.2 ⟨rfl, ⟨rfl, rfl, rfl⟩, .noEvent (exceededWidth_zero cfg)⟩,
    encoderInv_iff.2 rfl⟩

/-- Settles O18: a step of either part keeps that part's invariants and leaves the other part. -/
theorem everyStepKeepsTheInvariants : Obligations.EveryStepKeepsTheInvariants :=
  fun _ _ h ht => step_codecInv h ht

/-- Settles O17: both parts are at rest after reset. -/
theorem resetSatisfiesTheInvariants : Obligations.ResetSatisfiesTheInvariants :=
  ⟨resetWith_codecInv, resetWith_codecInv _⟩

/-- Settles O46: within R98's bound the 16-bit length is the payload's length. -/
theorem requestStartsTheSequencer : Obligations.RequestStartsTheSequencer := by
  intro s p rest hpending hlen hidle
  refine ⟨lengthHalf p, toNat_lengthHalf hlen, ?_⟩
  rw [step_eq, hpending]
  exact acceptEncode_next_iff.2 ⟨encodeRefusal_eq_none_iff.2 ⟨hlen, hidle⟩, rfl⟩

end Sys2Proof.Machine

/-! ### Where a step stops (R36, R98, R99, R112, R121) -/

namespace Sys2Proof.Machine

/-- Why an ENCODE has no meaning (R98, R99). -/
theorem encodeRefusal_eq_some_iff {p : List Byte} {s : State} {r : Refusal} :
    encodeRefusal p s = some r ↔
      65535 < p.length ∧ r = .payloadTooLong p.length ∨
        p.length ≤ 65535 ∧ s.estage ≠ .eIdle ∧ r = .encoderBusy := by
  unfold encodeRefusal
  by_cases hlen : 65535 < p.length
  · simp [hlen, Nat.not_le.2 hlen, eq_comm]
  · by_cases hidle : s.estage = .eIdle <;> simp [hlen, hidle, Nat.not_lt.1 hlen, eq_comm]

/-- The width a sample exceeds is `TIME_WIDTH` (R26). -/
theorem exceededWidth_eq_some_iff {cfg : CodecConfig} {now w : Nat} :
    exceededWidth cfg now = some w ↔ cfg.timeWidth = some w ∧ 2 ^ w ≤ now := by
  unfold exceededWidth
  cases cfg.timeWidth with
  | none => simp
  | some v =>
    by_cases hfits : now < 2 ^ v
    · simp only [hfits, if_true, Option.some.injEq, reduceCtorEq, false_iff]
      rintro ⟨rfl, hle⟩
      omega
    · simp only [hfits, if_false, Option.some.injEq, iff_self_and]
      rintro rfl
      omega

/-- The stimuli that a state gives no meaning, each with the refusal it meets. -/
inductive EnvironmentsError (s : State) : Stimulus → Refusal → Prop where
  /-- A decreasing sample (R121). -/
  | timeWentBack {b : Byte} {now : Nat} (h : now < s.lastActivityTime) :
      EnvironmentsError s (.rxByte b now) (.timeWentBack now s.lastActivityTime)
  /-- A sample that exceeds `TIME_WIDTH` (R121, log 5). -/
  | timeWrapped {b : Byte} {now w : Nat} (h : s.lastActivityTime ≤ now)
      (hw : exceededWidth s.cfg now = some w) :
      EnvironmentsError s (.rxByte b now) (.timeWrapped now w)
  /-- An ENCODE request that is too long, or made while busy (R98, R99). -/
  | encodeRequest {p : List Byte} {r : Refusal} (h : encodeRefusal p s = some r) :
      EnvironmentsError s (.encodeRequest p) r
  /-- The same as a call. -/
  | encodeCall {p : List Byte} {r : Refusal} (h : encodeRefusal p s = some r) :
      EnvironmentsError s (.invoke (.encode p)) r
  /-- The dispatch of an empty payload (R112). -/
  | emptyDispatch : EnvironmentsError s (.invoke (.dispatch [])) .emptyDispatch

/-- In `AwaitEnd` the buffer holds the whole payload (R16 iii). -/
theorem DecoderInv.readPayload_total {s : State} (h : DecoderInv s) (hs : s.stage = .awaitEnd) :
    ∃ p, readPayload s = .ok p := by
  obtain ⟨hle, hall⟩ := h.received (.inr (.inr hs))
  have hcap : s.targetLength.toNat ≤ s.cfg.maxCapacity.toNat := hle
  obtain ⟨p, hp, -⟩ := readRange_total (s := s) (a := 0) (n := s.targetLength.toNat) (by omega)
    fun i hi => by simpa [h.buffer, hall] using hi
  exact ⟨p, hp⟩

/-- With the decoder's invariants the body of a byte-step always goes on (R36, R61). -/
theorem DecoderInv.byteBody_next {s : State} (h : DecoderInv s) (b : Byte) :
    ∃ t, byteBody b s = .next t := by
  rw [byteBody_eq]
  cases hs : s.stage
  case awaitStart => dsimp only; split_ifs <;> exact ⟨_, rfl⟩
  case payload =>
    obtain ⟨hlt, hle⟩ := h.payload hs
    exact ⟨_, (execDPayload_eq b s).trans
      (if_pos (show s.bytesConsumed < s.cfg.maxCapacity by bv_omega))⟩
  case awaitEnd =>
    dsimp only
    split_ifs
    · obtain ⟨p, hp⟩ := h.readPayload_total hs
      exact ⟨_, execDEndOk_next_iff.2 ⟨p, hp, rfl⟩⟩
    · exact ⟨_, rfl⟩
  all_goals exact ⟨_, rfl⟩

/-- With the encoder's invariants the encoder's turn always goes on (R36, R94). -/
theorem EncoderInv.emitStep_next {s : State} (h : EncoderInv s) : ∃ t, emitStep s = .next t := by
  rw [emitStep_eq]
  cases he : s.estage
  case eStart => dsimp only [execEStart]; split_ifs <;> exact ⟨_, rfl⟩
  case ePayload =>
    obtain ⟨hlen, -⟩ := h.busy (by simp [he])
    have hidx : s.eidx.toNat < s.txp.length := hlen ▸ BitVec.lt_def.1 (h.body he)
    simp only [execEPayload_eq, List.getElem?_eq_getElem hidx]
    exact ⟨_, rfl⟩
  all_goals exact ⟨_, rfl⟩

theorem byteStep_next_or_refused {s : State} (h : DecoderInv s) (b : Byte) (now : Nat) :
    (∃ t, byteStep b now s = .next t) ∨
      ∃ r, byteStep b now s = .refused r ∧ EnvironmentsError s (.rxByte b now) r := by
  by_cases hback : now < s.lastActivityTime
  · exact .inr ⟨_, byteStep_refused hback, .timeWentBack hback⟩
  have hle := Nat.not_lt.1 hback
  cases hw : exceededWidth s.cfg now with
  | some w => exact .inr ⟨_, byteStep_wrapped hle hw, .timeWrapped hle hw⟩
  | none =>
    obtain ⟨u, hu⟩ := (afterPrologue_decoderInv h hw).byteBody_next b
    obtain ⟨hc, oc, hreact⟩ := react_eq u
    exact .inl ⟨_, (byteStep_eq hle hw).trans (andThen_next_iff.2 ⟨u, hu, hreact⟩)⟩

theorem acceptEncode_refused {p : List Byte} {s : State} {r : Refusal}
    (h : encodeRefusal p s = some r) : acceptEncode p s = .refused r := by
  simp only [acceptEncode, h]

theorem execEncode_refused {p : List Byte} {s : State} {r : Refusal}
    (h : encodeRefusal p s = some r) : execEncode p s = .refused r := by
  simp only [execEncode, h]

theorem call_next_or_refused (f : Service) (s : State) :
    (∃ t, exec (decodeCall f) s = .next t) ∨
      ∃ r, exec (decodeCall f) s = .refused r ∧ EnvironmentsError s (.invoke f) r := by
  cases f with
  | encode p =>
    cases hwhy : encodeRefusal p s with
    | none => exact .inl ⟨_, execEncode_next_iff.2 ⟨hwhy, rfl⟩⟩
    | some r => exact .inr ⟨r, execEncode_refused hwhy, .encodeCall hwhy⟩
  | dispatch p =>
    cases p with
    | nil => exact .inr ⟨_, rfl, .emptyDispatch⟩
    | cons id body => exact .inl ⟨_, rfl⟩
  | _ => exact .inl ⟨_, rfl⟩

/-- Every stimulus is performed, or is an error of the environment and refused. -/
theorem perform_next_or_refused {s : State} (h : CodecInv s) (x : Stimulus) :
    (∃ t, perform x s = .next t) ∨ ∃ r, perform x s = .refused r ∧ EnvironmentsError s x r := by
  cases x with
  | rxByte b now => exact byteStep_next_or_refused h.decoder b now
  | encodeRequest p =>
    cases hwhy : encodeRefusal p s with
    | none => exact .inl ⟨_, acceptEncode_next_iff.2 ⟨hwhy, rfl⟩⟩
    | some r => exact .inr ⟨r, acceptEncode_refused hwhy, .encodeRequest hwhy⟩
  | emit => exact .inl h.encoder.emitStep_next
  | invoke f => exact call_next_or_refused f s
  | _ => exact .inl ⟨_, rfl⟩

theorem step_next_or_refused {s : State} (h : CodecInv s) :
    (∃ t, step s = .next t) ∨ ∃ x rest r, s.pending = x :: rest ∧ step s = .refused r ∧
      EnvironmentsError { s with pending := rest } x r := by
  rw [step_eq]
  cases hp : s.pending with
  | nil => exact .inl h.encoder.emitStep_next
  | cons x rest =>
    have hrest : CodecInv { s with pending := rest } := h.congr rfl rfl
    exact (perform_next_or_refused hrest x).imp_right
      fun ⟨r, hr, hwhy⟩ => ⟨x, rest, r, rfl, hr, hwhy⟩

/-- Settles O20: with the invariants every access has its byte, so that what stops a step is the
stimulus itself. -/
theorem onlyTheEnvironmentsErrorsStop : Obligations.OnlyTheEnvironmentsErrorsStop := by
  intro s h
  obtain ⟨t, ht⟩ | ⟨x, rest, r, hp, hr, hwhy⟩ := step_next_or_refused h
  · simp [ht]
  · refine ⟨by simp [hr], fun r' hr' => ?_⟩
    obtain rfl : r = r' := Host.Outcome.refused.inj (hr.symm.trans hr')
    cases hwhy with
    | timeWentBack hback => exact .inl ⟨_, _, rest, hp, hback, rfl⟩
    | timeWrapped hle hw =>
      obtain ⟨hwidth, hpow⟩ := exceededWidth_eq_some_iff.1 hw
      exact .inr (.inl ⟨_, _, rest, _, hp, hle, hwidth, hpow, rfl⟩)
    | encodeRequest hwhy =>
      exact .inr (.inr (.inl ⟨_, rest, .inl hp, encodeRefusal_eq_some_iff.1 hwhy⟩))
    | encodeCall hwhy =>
      exact .inr (.inr (.inl ⟨_, rest, .inr hp, encodeRefusal_eq_some_iff.1 hwhy⟩))
    | emptyDispatch => exact .inr (.inr (.inr ⟨rest, hp, rfl⟩))

end Sys2Proof.Machine

/-! ### The payload buffer (R35, R36, R44) -/

namespace Sys2Proof.Machine

/-- Everything `D.PAYLOAD` can do when it goes on (R70). -/
theorem execDPayload_next_iff {b : Byte} {s t : State} :
    execDPayload b s = .next t ↔ s.bytesConsumed < s.cfg.maxCapacity ∧
      t = { s with
        pb := s.pb.write s.bytesConsumed.toNat b
        bytesConsumed := s.bytesConsumed + 1
        stage := if s.bytesConsumed + 1 = s.targetLength then .crcHi else .payload } := by
  rw [execDPayload_eq]
  by_cases hroom : s.bytesConsumed < s.cfg.maxCapacity <;> simp [hroom, eq_comm]

theorem enterPayload_wf {s : State} (h : s.pb.wf) : (enterPayload s).pb.wf := by
  rw [enterPayload_eq]
  split_ifs
  · exact Memory.wf_nil
  · exact h
  · exact h

theorem afterPrologue_wf {now : Nat} {s : State} (h : s.pb.wf) : (afterPrologue now s).pb.wf := by
  unfold afterPrologue
  split
  · exact Memory.wf_nil
  · exact h

/-- The body of a byte-step leaves the buffer, drops its contents, or writes one byte. -/
theorem byteBody_wf {b : Byte} {s t : State} (h : s.pb.wf) (ht : byteBody b s = .next t) :
    t.pb.wf := by
  rw [byteBody_eq] at ht
  cases hs : s.stage <;> simp only [hs] at ht
  case awaitStart => split_ifs at ht <;> cases ht <;> exact h
  case lenShort => cases ht; exact enterPayload_wf h
  case lenLo => cases ht; exact enterPayload_wf h
  case payload =>
    obtain ⟨-, rfl⟩ := execDPayload_next_iff.1 ht
    exact Memory.wf_write h _ b
  case awaitEnd =>
    split_ifs at ht
    · obtain ⟨p, -, rfl⟩ := execDEndOk_next_iff.1 ht
      split <;> exact Memory.wf_nil
    · cases ht; exact Memory.wf_nil
  all_goals cases ht; exact h

theorem emitStep_pb {s t : State} (h : emitStep s = .next t) : t.pb = s.pb :=
  (congrArg State.pb (emitStep_frame h) :)

theorem acceptEncode_pb {p : List Byte} {s t : State} (h : acceptEncode p s = .next t) :
    t.pb = s.pb :=
  (congrArg State.pb (acceptEncode_next_iff.1 h).2 :)

theorem call_pb {f : Service} {s t : State} (h : exec (decodeCall f) s = .next t) :
    t.pb = s.pb := by
  obtain ⟨p, -, hp⟩ | ht := call_frame h
  · exact (congrArg State.pb (execEncode_next_iff.1 hp).2 :)
  · exact (congrArg State.pb ht :)

theorem step_wf {s t : State} (h : s.pb.wf) (ht : step s = .next t) : t.pb.wf := by
  obtain ⟨-, hemit⟩ | ⟨x, rest, -, hx⟩ := step_cases ht
  · exact emitStep_pb hemit ▸ h
  obtain ⟨b, now, -, -, -, u, hc, oc, hbody, -, rfl⟩ | ⟨-, rfl⟩ | ⟨-, rfl⟩ | ⟨p, -, hencode⟩ |
    ⟨-, hemit⟩ | ⟨f, -, hcall⟩ | ⟨n, -, rfl⟩ | ⟨n, -, rfl⟩ := hx
  · have hpro : (afterPrologue now { s with pending := rest }).pb.wf := afterPrologue_wf h
    exact (byteBody_wf hpro hbody :)
  · exact Memory.wf_nil
  · exact Memory.wf_nil
  · exact acceptEncode_pb hencode ▸ h
  · exact emitStep_pb hemit ▸ h
  · exact call_pb hcall ▸ h
  · exact h
  · exact h

/-- Settles O34: only the body of a byte-step writes a byte, and a write keeps the form. -/
theorem bufferStaysCanonical : Obligations.BufferStaysCanonical := fun _ _ h ht => step_wf h ht

/-- The first read of an empty buffer faults, whatever the number of bytes wanted (R44). -/
theorem readPayload_of_pb_eq_nil {s : State} (hpb : s.pb = []) (hlen : s.targetLength ≠ 0)
    (hcap : s.cfg.maxCapacity ≠ 0) : readPayload s = .error (.bufferUnwritten 0) := by
  have hpos : 0 < s.cfg.maxCapacity.toNat := by bv_omega
  obtain ⟨n, hn⟩ : ∃ n, s.targetLength.toNat = n + 1 :=
    Nat.exists_eq_succ_of_ne_zero (by bv_omega)
  have hread : memRead s 0 = .error (.bufferUnwritten 0) := by
    simp [memRead, hpos, hpb, Memory.read]
  rw [readPayload, hn, readRange, hread]

/-- Settles O35: each access where there is no byte answers its own fault. -/
theorem accessesOutsideTheBufferStop : Obligations.AccessesOutsideTheBufferStop := by
  refine ⟨fun s b h => ?_, fun s hpb hlen hcap => ?_, fun s h => ?_⟩
  · exact (execDPayload_eq b s).trans (if_neg (BitVec.not_lt.2 h))
  · simp only [exec, execDEndOk, readPayload_of_pb_eq_nil hpb hlen hcap]
  · simp only [exec, execEPayload_eq, List.getElem?_eq_none h]

end Sys2Proof.Machine

/-! ### Decoder and encoder side by side (R41) -/

namespace Sys2Proof.Machine

/-- `s` with the decoder's registers, buffer, time and event of `d`. -/
def withDecoder (d s : State) : State :=
  { s with
    stage := d.stage, targetLength := d.targetLength, bytesConsumed := d.bytesConsumed
    crcAccumulator := d.crcAccumulator, pb := d.pb, lastActivityTime := d.lastActivityTime
    event := d.event }

/-- `s` with the encoder's registers and the sink of `e`. -/
def withEncoder (e s : State) : State :=
  { s with
    sink := e.sink, estage := e.estage, elen := e.elen, eidx := e.eidx, ecrc := e.ecrc
    txp := e.txp, encDraws := e.encDraws }

/-- The two parts are disjoint. -/
theorem withDecoder_withEncoder (d e s : State) :
    withDecoder d (withEncoder e s) = withEncoder e (withDecoder d s) := rfl

/-- An operation of the decoder: a byte-step's body, the reset, or the prologue (R2, R62, R75). -/
def DecoderOperation (i : Instr) : Prop :=
  (∃ st b, encode i = .rx st b) ∨ encode i = .softReset ∨ ∃ now, encode i = .timeSample now

/-- An operation of the encoder: an emission step, or the whole `ENCODE` (R55, R88). -/
def EncoderOperation (j : Instr) : Prop := (∃ e, encode j = .tx e) ∨ ∃ p, j = .encode p

/-- Everything the prologue can do when it goes on (R62, R120, R121). -/
theorem execDTimeoutPrologue_next_iff {now : Nat} {s t : State} :
    execDTimeoutPrologue now s = .next t ↔
      s.lastActivityTime ≤ now ∧ exceededWidth s.cfg now = none ∧
        t = { (if timeoutExpired s now then raiseError .receiveTimeout s else s) with
          lastActivityTime := now } := by
  unfold execDTimeoutPrologue
  by_cases hback : now < s.lastActivityTime
  · simp [hback, Nat.not_le.2 hback]
  · rw [if_neg hback]
    cases exceededWidth s.cfg now with
    | some w => simp
    | none => exact ⟨fun h => ⟨Nat.not_lt.1 hback, rfl, (Host.Outcome.next.inj h).symm⟩,
        fun ⟨_, _, h⟩ => congrArg Host.Outcome.next h.symm⟩

/-- The outcome of `E.START` (R90). -/
theorem execEStart_eq (s : State) :
    execEStart s = .next { pushSink (if shortForm s.elen then 0x02 else 0x03) s with
      estage := if shortForm s.elen then .eLenShort else .eLenHi } := by
  unfold execEStart
  split <;> rfl

/-- Everything `E.PAYLOAD` can do when it goes on (R94). -/
theorem execEPayload_next_iff {s t : State} :
    execEPayload s = .next t ↔ ∃ v, s.txp[s.eidx.toNat]? = some v ∧
      t = { pushSink v s with
        eidx := s.eidx + 1
        estage := if s.eidx + 1 = s.elen then .eCrcHi else .ePayload } := by
  unfold execEPayload
  split <;> simp [*, eq_comm]

/-- Payload entry leaves all but the decoder's part. -/
theorem enterPayload_eq_withDecoder (s : State) :
    enterPayload s = withDecoder (enterPayload s) s := by
  have htime : (enterPayload s).lastActivityTime = s.lastActivityTime :=
    (congrArg State.lastActivityTime (enterPayload_frame s) :)
  rw [withDecoder, htime]
  exact enterPayload_frame s

/-- A decoder operation leaves all but the decoder's part (R41). -/
theorem DecoderOperation.frame {i : Instr} {s t : State} (hi : DecoderOperation i)
    (h : exec i s = .next t) : t = withDecoder t s := by
  cases i
  case dLenShort b | dLenLo b => cases h; exact (enterPayload_eq_withDecoder _).trans rfl
  case dPayload b => obtain ⟨-, rfl⟩ := execDPayload_next_iff.1 h; rfl
  case dEndOk =>
    obtain ⟨p, -, rfl⟩ := execDEndOk_next_iff.1 h
    split <;> rfl
  case dTimeoutPrologue now =>
    obtain ⟨-, -, rfl⟩ := execDTimeoutPrologue_next_iff.1 h
    split <;> rfl
  case dStartShort | dStartLong | dNoise | dLenHi | dCrcHi | dCrcLo | dEndBad | dReset =>
    cases h; rfl
  all_goals simp [DecoderOperation, encode] at hi

/-- Settles O52, by cases of the operation. -/
theorem decoderOperationsLeaveTheEncoder : Obligations.DecoderOperationsLeaveTheEncoder :=
  fun _ _ _ hi h => DecoderOperation.frame hi h

/-- An encoder operation leaves all but the encoder's part (R41). -/
theorem EncoderOperation.frame {j : Instr} {s t : State} (hj : EncoderOperation j)
    (h : exec j s = .next t) : t = withEncoder t s := by
  cases j
  case eStart => obtain rfl := Host.Outcome.next.inj ((execEStart_eq s).symm.trans h); rfl
  case ePayload => obtain ⟨v, -, rfl⟩ := execEPayload_next_iff.1 h; rfl
  case encode p => obtain ⟨-, rfl⟩ := execEncode_next_iff.1 h; rfl
  case eLenShort | eLenHi | eLenLo | eCrcHi | eCrcLo | eEnd => cases h; rfl
  all_goals simp [EncoderOperation, encode] at hj

theorem enterPayload_withEncoder (e s : State) :
    enterPayload (withEncoder e s) = withEncoder e (enterPayload s) := by
  simp only [enterPayload_eq, apply_ite (withEncoder e)]
  rfl

theorem readPayload_withEncoder (e s : State) :
    readPayload (withEncoder e s) = readPayload s :=
  readRange_congr (s := withEncoder e s) (t := s) rfl rfl 0 _

/-- A decoder operation does not observe the encoder's part (R41). -/
theorem DecoderOperation.exec_withEncoder {i : Instr} {s t : State} (hi : DecoderOperation i)
    (h : exec i s = .next t) (e : State) :
    exec i (withEncoder e s) = .next (withEncoder e t) := by
  cases i
  case dLenShort b =>
    cases h
    exact congrArg Host.Outcome.next (enterPayload_withEncoder e { s with targetLength := _ })
  case dLenLo b =>
    cases h
    exact congrArg Host.Outcome.next (enterPayload_withEncoder e { s with targetLength := _ })
  case dPayload b =>
    obtain ⟨hroom, rfl⟩ := execDPayload_next_iff.1 h
    exact execDPayload_next_iff.2 ⟨hroom, rfl⟩
  case dEndOk =>
    obtain ⟨p, hp, rfl⟩ := execDEndOk_next_iff.1 h
    refine execDEndOk_next_iff.2 ⟨p, (readPayload_withEncoder e s).trans hp, ?_⟩
    exact apply_ite (withEncoder e) _ _ _
  case dTimeoutPrologue now =>
    obtain ⟨hle, hw, rfl⟩ := execDTimeoutPrologue_next_iff.1 h
    refine execDTimeoutPrologue_next_iff.2 ⟨hle, hw, ?_⟩
    have hsame : timeoutExpired (withEncoder e s) now = timeoutExpired s now := rfl
    rw [hsame]
    split <;> rfl
  case dStartShort | dStartLong | dNoise | dLenHi | dCrcHi | dCrcLo | dEndBad | dReset =>
    cases h; rfl
  all_goals simp [DecoderOperation, encode] at hi

/-- An encoder operation does not observe the decoder's part (R41). -/
theorem EncoderOperation.exec_withDecoder {j : Instr} {s t : State} (hj : EncoderOperation j)
    (h : exec j s = .next t) (d : State) :
    exec j (withDecoder d s) = .next (withDecoder d t) := by
  cases j
  case eStart =>
    obtain rfl := Host.Outcome.next.inj ((execEStart_eq s).symm.trans h)
    exact execEStart_eq (withDecoder d s)
  case ePayload =>
    obtain ⟨v, hv, rfl⟩ := execEPayload_next_iff.1 h
    exact execEPayload_next_iff.2 ⟨v, hv, rfl⟩
  case encode p =>
    obtain ⟨hmeaning, rfl⟩ := execEncode_next_iff.1 h
    exact execEncode_next_iff.2 ⟨hmeaning, rfl⟩
  case eLenShort | eLenHi | eLenLo | eCrcHi | eCrcLo | eEnd => cases h; rfl
  all_goals simp [EncoderOperation, encode] at hj

/-- Settles O53: each operation writes its own part only and does not observe the other. -/
theorem decoderAndEncoderOperationsCommute :
    Obligations.DecoderAndEncoderOperationsCommute := by
  intro i j s s1 s2 hi hj h1 h2
  have hs1 : s1 = withDecoder s1 s := DecoderOperation.frame hi h1
  have hs2 : s2 = withEncoder s2 s := EncoderOperation.frame hj h2
  have hj1 : exec j s1 = .next (withDecoder s1 s2) :=
    hs1 ▸ EncoderOperation.exec_withDecoder hj h2 s1
  have hi2 : exec i s2 = .next (withEncoder s2 s1) :=
    hs2 ▸ DecoderOperation.exec_withEncoder hi h1 s2
  have hsame : withEncoder s2 s1 = withDecoder s1 s2 := calc
    withEncoder s2 s1 = withEncoder s2 (withDecoder s1 s) := congrArg (withEncoder s2) hs1
    _ = withDecoder s1 (withEncoder s2 s) := (withDecoder_withEncoder s1 s2 s).symm
    _ = withDecoder s1 s2 := congrArg (withDecoder s1) hs2.symm
  exact ⟨withDecoder s1 s2, hj1, hsame ▸ hi2⟩

end Sys2Proof.Machine

/-! ### Feeding a frame to the decoder, one byte a step (R45, R46, R58, R83) -/

namespace Sys2Proof.Machine

theorem SamplesInTime.frameInTime {cfg : CodecConfig} {last : Nat} {times : List Nat}
    (h : SamplesInTime cfg last times) : FrameInTime cfg last times := by
  cases times with
  | nil => trivial
  | cons now later =>
    obtain ⟨hle, hw, -, hlater⟩ := h
    exact ⟨hle, hw, hlater⟩

/-- The bytes stand next in the input, with samples that give no timeout, and `rest` after them. -/
def Fed (s : State) (bytes : List Byte) (rest : List Stimulus) : Prop :=
  ∃ times, times.length = bytes.length ∧ FrameInTime s.cfg s.lastActivityTime times ∧
    (s.stage ≠ .awaitStart → SamplesInTime s.cfg s.lastActivityTime times) ∧
    s.pending = rxStream bytes times ++ rest

theorem Fed.pending_eq {s : State} {rest : List Stimulus} (h : Fed s [] rest) :
    s.pending = rest := by
  obtain ⟨times, -, -, -, hp⟩ := h
  simpa [rxStream] using hp

/-- The state in which the body of a byte-step without a timeout runs (R62). -/
def arrived (now : Nat) (later : List Stimulus) (s : State) : State :=
  { s with event := .noEvent, lastActivityTime := now, pending := later }

theorem afterPrologue_eq_arrived {s : State} {now : Nat} {later : List Stimulus}
    (h : timeoutExpired s now = false) :
    afterPrologue now { s with pending := later } = arrived now later s := by
  have hsame : timeoutExpired { s with pending := later } now = timeoutExpired s now := rfl
  rw [afterPrologue, hsame, h]
  rfl

/-- A byte that is fed runs its body without a timeout, and leaves the other bytes fed. -/
theorem Fed.step_eq {s : State} {b : Byte} {bytes : List Byte} {rest : List Stimulus}
    (h : Fed s (b :: bytes) rest) :
    ∃ now later, step s = andThen (byteBody b (arrived now later s)) react ∧
      ∀ t, byteBody b (arrived now later s) = .next t → Fed t bytes rest := by
  obtain ⟨_ | ⟨now, times⟩, hlen, hframe, hgap, hp⟩ := h
  · cases hlen
  obtain ⟨hle, hw, hlater⟩ := hframe
  have hquiet : timeoutExpired s now = false := by
    by_cases hs : s.stage = .awaitStart
    · simp [timeoutExpired, hs]
    · obtain ⟨-, -, hint, -⟩ := hgap hs
      simpa [timeoutExpired, hs] using hint
  refine ⟨now, rxStream bytes times ++ rest, ?_, fun t ht => ?_⟩
  · rw [← afterPrologue_eq_arrived hquiet]
    exact step_rxByte hp hle hw
  · rw [byteBody_frame ht]
    exact ⟨times, Nat.succ.inj hlen, hlater.frameInTime, fun _ => hlater, rfl⟩

/-- `n` steps that lead from `s` to `t` with no event. -/
def QuietRun (n : Nat) (s t : State) : Prop :=
  runEvents n s = some (t, List.replicate n .noEvent)

theorem QuietRun.trans {m n : Nat} {s t u : State} (h : QuietRun m s t) (h' : QuietRun n t u) :
    QuietRun (m + n) s u := by
  rw [QuietRun] at h h' ⊢
  simp [runEvents_add, h, h']

theorem runEvents_one {s t : State} (h : step s = .next t) :
    runEvents 1 s = some (t, [t.event]) := by
  simp [runEvents, h]

/-- A quiet run and one more step give the event of that step only. -/
theorem QuietRun.runEvents_succ {n : Nat} {s t u : State} (h : QuietRun n s t)
    (hu : step t = .next u) {e : Event} (he : u.event = e) :
    runEvents (n + 1) s = some (u, onlyLast (n + 1) e) := by
  rw [QuietRun] at h
  rw [runEvents_add, h]
  simp [runEvents_one hu, onlyLast, he]

/-- Fed to a decoder with `P`, the bytes give no event and lead to `Q`, whatever follows them. -/
def Feeds (P : State → Prop) (bytes : List Byte) (Q : State → Prop) : Prop :=
  ∀ s more rest, P s → Fed s (bytes ++ more) rest →
    ∃ t, QuietRun bytes.length s t ∧ Q t ∧ Fed t more rest

section
variable {P Q R : State → Prop}

theorem Feeds.nil : Feeds P [] P := fun s _ _ hs hfed => ⟨s, rfl, hs, hfed⟩

theorem Feeds.append {xs ys : List Byte} (h : Feeds P xs Q) (h' : Feeds Q ys R) :
    Feeds P (xs ++ ys) R := by
  intro s more rest hs hfed
  rw [List.append_assoc] at hfed
  obtain ⟨t, hst, ht, hfed'⟩ := h s _ rest hs hfed
  obtain ⟨u, htu, hu, hfed''⟩ := h' t more rest ht hfed'
  exact ⟨u, List.length_append ▸ hst.trans htu, hu, hfed''⟩

/-- One byte feeds if its body goes on with no event. -/
theorem Feeds.single {b : Byte}
    (h : ∀ s now later, P s → ∃ t, byteBody b (arrived now later s) = .next t ∧
      t.event = .noEvent ∧ Q t) : Feeds P [b] Q := by
  intro s more rest hs hfed
  obtain ⟨now, later, hstep, hnext⟩ := hfed.step_eq
  obtain ⟨t, ht, he, hq⟩ := h s now later hs
  rw [ht, andThen_next, react_noEvent he] at hstep
  have hquiet : QuietRun 1 s t := (runEvents_one hstep).trans (by rw [he]; rfl)
  exact ⟨t, hquiet, hq, hnext t ht⟩

/-- Quiet bytes and a last one that ends the frame give that one event, at the last byte (R83,
R84). -/
theorem Feeds.runEvents_last {bytes : List Byte} {b : Byte} {e : Event} (h : Feeds P bytes Q)
    (hlast : ∀ s now later, Q s → ∃ t, byteBody b (arrived now later s) = .next t ∧
      t.event = e ∧ AtRest t)
    {s : State} {rest : List Stimulus} (hs : P s) (hfed : Fed s (bytes ++ [b]) rest) :
    ∃ t, runEvents (bytes ++ [b]).length s = some (t, onlyLast (bytes ++ [b]).length e) ∧
      AtRest t ∧ t.pending = rest := by
  obtain ⟨t, hst, ht, hfed'⟩ := h s [b] rest hs hfed
  obtain ⟨now, later, hstep, hnext⟩ := hfed'.step_eq
  obtain ⟨u, hu, he, hrest⟩ := hlast t now later ht
  obtain ⟨hc, oc, hreact⟩ := react_eq u
  rw [hu, andThen_next, hreact] at hstep
  rw [List.length_append]
  exact ⟨_, hst.runEvents_succ hstep he, hrest, (hnext u hu).pending_eq⟩

end

/-! ### The phases of a long-form frame -/

theorem byteBody_startLong {s : State} (h : s.stage = .awaitStart) :
    byteBody 0x03 s = execDStartLong s := by
  rw [byteBody_eq, h]
  rfl

theorem byteBody_lenHi {s : State} (h : s.stage = .lenHi) (b : Byte) :
    byteBody b s = execDLenHi b s := by
  rw [byteBody_eq, h]

theorem byteBody_lenLo {s : State} (h : s.stage = .lenLo) (b : Byte) :
    byteBody b s = execDLenLo b s := by
  rw [byteBody_eq, h]

theorem byteBody_payload {s : State} (h : s.stage = .payload) (b : Byte) :
    byteBody b s = execDPayload b s := by
  rw [byteBody_eq, h]

theorem byteBody_crcHi {s : State} (h : s.stage = .crcHi) (b : Byte) :
    byteBody b s = execDCrcHi b s := by
  rw [byteBody_eq, h]

theorem byteBody_crcLo {s : State} (h : s.stage = .crcLo) (b : Byte) :
    byteBody b s = execDCrcLo b s := by
  rw [byteBody_eq, h]

theorem byteBody_endOk {s : State} (h : s.stage = .awaitEnd) :
    byteBody 0x03 s = execDEndOk s := by
  rw [byteBody_eq, h]
  rfl

/-- In a stage before the length is known, with room for the payload. -/
structure Header (p : List Byte) (stage : Stage) (s : State) : Prop where
  stage_eq : s.stage = stage
  fits : p.length ≤ s.cfg.maxCapacity.toNat

/-- In `LenLo`, with the high byte of the payload's length (R67). -/
def HalfDeclared (p : List Byte) (s : State) : Prop :=
  Header p .lenLo s ∧ s.targetLength = highByte (hiOf (lengthHalf p))

/-- The length of `p` is declared and the buffer holds its first `n` bytes (R16, R70). -/
structure Storing (p : List Byte) (n : Nat) (s : State) : Prop where
  stage_eq : s.stage = if n = p.length then .crcHi else .payload
  target : s.targetLength = lengthHalf p
  count : s.bytesConsumed.toNat = n
  stored : ∀ i < n, s.pb.read i = p[i]?
  fits : p.length ≤ s.cfg.maxCapacity.toNat

/-- In a stage of the trailer, with all of `p` in the buffer and `acc` of its checksum declared. -/
structure Trailer (p : List Byte) (stage : Stage) (acc : Half) (s : State) : Prop where
  stage_eq : s.stage = stage
  acc_eq : s.crcAccumulator = acc
  target : s.targetLength = lengthHalf p
  stored : ∀ i < p.length, s.pb.read i = p[i]?
  fits : p.length ≤ s.cfg.maxCapacity.toNat

theorem toNat_lengthHalf_of_fits {p : List Byte} {cap : Half} (h : p.length ≤ cap.toNat) :
    (lengthHalf p).toNat = p.length :=
  toNat_lengthHalf (by have := cap.isLt; omega)

/-- Payload entry with the length of a payload that fits (R69). -/
theorem storing_enterPayload {p : List Byte} {s : State} (ht : s.targetLength = lengthHalf p)
    (h : p.length ≤ s.cfg.maxCapacity.toNat) :
    (enterPayload s).event = s.event ∧ Storing p 0 (enterPayload s) := by
  have hlen := toNat_lengthHalf_of_fits h
  have hcap : ¬ s.cfg.maxCapacity < s.targetLength := by
    rw [ht, BitVec.lt_def, hlen]
    omega
  have hzero : s.targetLength = 0 ↔ 0 = p.length := by
    rw [ht, ← hlen, eq_comm (a := 0), ← BitVec.toNat_inj]
    rfl
  rw [enterPayload_eq, if_neg hcap]
  split
  next hz => exact ⟨rfl, (if_pos (hzero.1 hz)).symm, ht, rfl, nofun, h⟩
  next hz => exact ⟨rfl, (if_neg (mt hzero.2 hz)).symm, ht, rfl, nofun, h⟩

/-- The long-form header declares the payload's length, below 256 too (R58, R67, R68). -/
theorem feeds_longHeader (p : List Byte) :
    Feeds (Header p .awaitStart) (longHeader p) (Storing p 0) := by
  have hstart : Feeds (Header p .awaitStart) [0x03] (Header p .lenHi) :=
    .single fun s now later hs =>
      ⟨_, byteBody_startLong (s := arrived now later s) hs.stage_eq, rfl, rfl, hs.fits⟩
  have hhi : Feeds (Header p .lenHi) [hiOf (lengthHalf p)] (HalfDeclared p) :=
    .single fun s now later hs =>
      ⟨_, byteBody_lenHi (s := arrived now later s) hs.stage_eq _, rfl, ⟨rfl, hs.fits⟩, rfl⟩
  have hlo : Feeds (HalfDeclared p) [loOf (lengthHalf p)] (Storing p 0) :=
    .single fun s now later ⟨hs, htarget⟩ =>
      ⟨_, byteBody_lenLo (s := arrived now later s) hs.stage_eq _,
        storing_enterPayload (by simp [arrived, htarget]) hs.fits⟩
  exact hstart.append (hhi.append hlo)

/-- While a payload byte is missing, the counter is inside the capacity, and its next value is the
declared length exactly at the last byte (R70). -/
theorem Storing.counter {p : List Byte} {n : Nat} {s : State} (h : Storing p n s)
    (hn : n < p.length) : s.bytesConsumed < s.cfg.maxCapacity ∧
      (s.bytesConsumed + 1).toNat = n + 1 ∧
      (s.bytesConsumed + 1 = s.targetLength ↔ n + 1 = p.length) := by
  have hcount := h.count
  have hfits := h.fits
  have hlen : s.targetLength.toNat = p.length := by rw [h.target, toNat_lengthHalf_of_fits hfits]
  bv_omega

/-- Writing the next byte extends what is stored. -/
theorem read_write_next {p : List Byte} {n : Nat} {m : Memory} {b : Byte}
    (h : ∀ i < n, m.read i = p[i]?) (hb : p[n]? = some b) :
    ∀ i < n + 1, (m.write n b).read i = p[i]? := by
  intro i hi
  obtain hi | rfl := Nat.lt_succ_iff_lt_or_eq.1 hi
  · rw [Memory.read_write_other _ _ hi.ne, h i hi]
  · rw [Memory.read_write_same, hb]

/-- The next payload byte is stored at its own index (R70). -/
theorem feeds_payloadByte {p : List Byte} {n : Nat} {b : Byte} (hb : p[n]? = some b) :
    Feeds (Storing p n) [b] (Storing p (n + 1)) := by
  have hn : n < p.length := (List.getElem?_eq_some_iff.1 hb).1
  refine .single fun s now later hs => ?_
  obtain ⟨hroom, hcount, hlast⟩ := hs.counter hn
  have hstage : (arrived now later s).stage = .payload := hs.stage_eq.trans (if_neg hn.ne)
  refine ⟨_, (byteBody_payload hstage b).trans (execDPayload_next_iff.2 ⟨hroom, rfl⟩), rfl, ?_⟩
  exact ⟨if_congr hlast rfl rfl, hs.target, hcount,
    hs.count.symm ▸ read_write_next hs.stored hb, hs.fits⟩

/-- The payload bytes one after the other, from the first that is not stored yet. -/
theorem feeds_payload (stored todo : List Byte) :
    Feeds (Storing (stored ++ todo) stored.length) todo
      (Storing (stored ++ todo) (stored ++ todo).length) := by
  induction todo generalizing stored with
  | nil => simpa using Feeds.nil
  | cons b todo ih =>
    have hfirst := feeds_payloadByte (show (stored ++ b :: todo)[stored.length]? = some b by simp)
    have hothers := ih (stored ++ [b])
    simp only [List.append_assoc, List.singleton_append, List.length_append,
      List.length_singleton] at hothers
    simpa using hfirst.append hothers

/-- The two checksum bytes declare their field, whatever it is (R71, R72). -/
theorem feeds_checksum (p : List Byte) (c : Half) :
    Feeds (Storing p p.length) [hiOf c, loOf c] (Trailer p .awaitEnd c) := by
  have hhi : Feeds (Storing p p.length) [hiOf c] (Trailer p .crcLo (highByte (hiOf c))) :=
    .single fun s now later hs =>
      ⟨_, byteBody_crcHi (s := arrived now later s) (hs.stage_eq.trans (if_pos rfl)) _, rfl,
        rfl, rfl, hs.target, hs.stored, hs.fits⟩
  have hlo : Feeds (Trailer p .crcLo (highByte (hiOf c))) [loOf c] (Trailer p .awaitEnd c) :=
    .single fun s now later hs =>
      ⟨_, byteBody_crcLo (s := arrived now later s) hs.stage_eq _, rfl, rfl,
        by simp [arrived, hs.acc_eq], hs.target, hs.stored, hs.fits⟩
  exact hhi.append hlo

/-- A frame whose header declares its payload's length gives no event but the one its end byte gives
(R83, R84). -/
theorem runEvents_wireFrame {header p : List Byte} {c : Half} {last : Byte} {e : Event}
    (hheader : Feeds (Header p .awaitStart) header (Storing p 0))
    (hlast : ∀ s, Trailer p .awaitEnd c s → ∃ t, byteBody last s = .next t ∧
      t.event = e ∧ AtRest t)
    {s : State} {times : List Nat} {rest : List Stimulus} (hstage : s.stage = .awaitStart)
    (hfits : p.length ≤ s.cfg.maxCapacity.toNat)
    (hlen : times.length = (wireFrame header p c last).length)
    (htime : FrameInTime s.cfg s.lastActivityTime times)
    (hp : s.pending = rxStream (wireFrame header p c last) times ++ rest) :
    ∃ t, runEvents (wireFrame header p c last).length s =
        some (t, onlyLast (wireFrame header p c last).length e) ∧
      AtRest t ∧ t.pending = rest := by
  have hquiet : Feeds (Header p .awaitStart) (header ++ p ++ [hiOf c, loOf c])
      (Trailer p .awaitEnd c) :=
    (hheader.append (feeds_payload [] p)).append (feeds_checksum p c)
  have hframe : wireFrame header p c last = header ++ p ++ [hiOf c, loOf c] ++ [last] := by
    simp [wireFrame]
  have hfed : Fed s (wireFrame header p c last) rest :=
    ⟨times, hlen, htime, fun h => absurd hstage h, hp⟩
  rw [hframe] at hfed ⊢
  exact hquiet.runEvents_last
    (fun t now later ht => hlast _ ⟨ht.stage_eq, ht.acc_eq, ht.target, ht.stored, ht.fits⟩)
    ⟨hstage, hfits⟩ hfed

/-- The end byte after the payload's own checksum completes it (R73). -/
theorem Trailer.byteBody_end {p : List Byte} {s : State} (h : Trailer p .awaitEnd (crc16 p) s) :
    byteBody 0x03 s = .next (complete p s) := by
  have hlen : p.length = s.targetLength.toNat := by rw [h.target, toNat_lengthHalf_of_fits h.fits]
  rw [byteBody_endOk h.stage_eq, execDEndOk_of_payload hlen h.fits h.stored, if_pos h.acc_eq.symm]

theorem complete_atRest (p : List Byte) (s : State) : AtRest (complete p s) :=
  ⟨rfl, rfl, rfl, rfl, rfl⟩

/-- Settles O25, phase by phase: header, payload (by induction), checksum, end byte. -/
theorem longFormIsAcceptedForEveryLength : Obligations.LongFormIsAcceptedForEveryLength := by
  intro s p times rest hstage hfits hlen htime hp
  have hbytes : (wireFrame (longHeader p) p (crc16 p) 0x03).length = p.length + 6 := by
    simp [wireFrame, longHeader]
  rw [← hbytes] at hlen ⊢
  exact runEvents_wireFrame (feeds_longHeader p)
    (fun t ht => ⟨_, ht.byteBody_end, rfl, complete_atRest p t⟩) hstage hfits hlen htime hp

end Sys2Proof.Machine

/-! ### The emission steps of one ENCODE (R55, R88 to R97) -/

namespace Sys2Proof.Machine

/-- `s` with nothing pending while it emits the frame of `p`: in `e`, with `n` payload bytes and
altogether `out` pushed (R29). -/
def emitting (p : List Byte) (e : EStage) (n : Nat) (out : List Byte) (s : State) : State :=
  { s with
    pending := [], txp := p, elen := lengthHalf p, ecrc := crc16 p, estage := e
    eidx := BitVec.ofNat 16 n, sink := s.sink ++ out }

/-- Where the sequencer is with these payload bytes left (R91, R93, R94). -/
def bodyStage (todo : List Byte) : EStage := if todo = [] then .eCrcHi else .ePayload

/-- An accepted request starts to emit (R88, R98, R99). -/
theorem step_encodeRequest {s : State} {p : List Byte} (hlen : p.length ≤ 65535)
    (hidle : s.estage = .eIdle) :
    step { s with pending := [.encodeRequest p] } = .next (emitting p .eStart 0 [] s) := by
  rw [step_eq]
  refine acceptEncode_next_iff.2 ⟨encodeRefusal_eq_none_iff.2 ⟨hlen, hidle⟩, ?_⟩
  simp [emitting]

theorem lengthHalf_eq_zero_iff {p : List Byte} (hlen : p.length ≤ 65535) :
    lengthHalf p = 0 ↔ p = [] := by
  rw [← BitVec.toNat_inj, toNat_lengthHalf hlen]
  exact List.length_eq_zero_iff

/-- The header of the frame of a payload, in the form its length asks for (R45, R46, R47). -/
def frameHeader (p : List Byte) : List Byte :=
  if shortForm (lengthHalf p) then shortHeader p else longHeader p

theorem encodeFrame_eq (p : List Byte) :
    encodeFrame p = frameHeader p ++ p ++ [hiOf (crc16 p), loOf (crc16 p), 0x03] := rfl

/-- One step of emission that pushes `v`: it joins what was pushed before. -/
theorem step_emitting {p : List Byte} {e e' : EStage} {n n' : Nat} {out : List Byte} {v : Byte}
    {s : State} (h : emitStep (emitting p e n out s) =
      .next { pushSink v (emitting p e n out s) with estage := e', eidx := BitVec.ofNat 16 n' }) :
    step (emitting p e n out s) = .next (emitting p e' n' (out ++ [v]) s) := by
  have hpush : { pushSink v (emitting p e n out s) with estage := e', eidx := BitVec.ofNat 16 n' } =
      emitting p e' n' (out ++ [v]) s := by simp [pushSink, emitting]
  exact (step_eq _).trans (hpush ▸ h)

theorem step_eStart_short {p : List Byte} (h : shortForm (lengthHalf p) = true) (n : Nat)
    (out : List Byte) (s : State) :
    step (emitting p .eStart n out s) = .next (emitting p .eLenShort n (out ++ [0x02]) s) :=
  step_emitting ((emitStep_eq _).trans (if_pos h))

theorem step_eStart_long {p : List Byte} (h : ¬ shortForm (lengthHalf p) = true) (n : Nat)
    (out : List Byte) (s : State) :
    step (emitting p .eStart n out s) = .next (emitting p .eLenHi n (out ++ [0x03]) s) :=
  step_emitting ((emitStep_eq _).trans (if_neg h))

theorem step_eLenShort {p : List Byte} (hlen : p.length ≤ 65535) (n : Nat) (out : List Byte)
    (s : State) :
    step (emitting p .eLenShort n out s) =
      .next (emitting p (bodyStage p) n (out ++ [loOf (lengthHalf p)]) s) := by
  rw [bodyStage, ← if_congr (lengthHalf_eq_zero_iff hlen) rfl rfl]
  exact step_emitting (emitStep_eq _)

theorem step_eLenHi (p : List Byte) (n : Nat) (out : List Byte) (s : State) :
    step (emitting p .eLenHi n out s) =
      .next (emitting p .eLenLo n (out ++ [hiOf (lengthHalf p)]) s) :=
  step_emitting (emitStep_eq _)

theorem step_eLenLo (p : List Byte) (n : Nat) (out : List Byte) (s : State) :
    step (emitting p .eLenLo n out s) =
      .next (emitting p .ePayload n (out ++ [loOf (lengthHalf p)]) s) :=
  step_emitting (emitStep_eq _)

/-- The next payload byte, and the test whether it was the last (R94). -/
theorem step_ePayload {sent todo : List Byte} {v : Byte}
    (hlen : (sent ++ v :: todo).length ≤ 65535) (out : List Byte) (s : State) :
    step (emitting (sent ++ v :: todo) .ePayload sent.length out s) =
      .next (emitting (sent ++ v :: todo) (bodyStage todo) (sent.length + 1) (out ++ [v]) s) := by
  have hlength : (sent ++ v :: todo).length = sent.length + 1 + todo.length := by simp; omega
  have hidx : (BitVec.ofNat 16 sent.length).toNat = sent.length := by
    rw [BitVec.toNat_ofNat]; omega
  have hnext : BitVec.ofNat 16 sent.length + 1 = BitVec.ofNat 16 (sent.length + 1) :=
    (BitVec.ofNat_add _ _).symm
  have hlast : BitVec.ofNat 16 sent.length + 1 = lengthHalf (sent ++ v :: todo) ↔ todo = [] := by
    rw [hnext, ← BitVec.toNat_inj, toNat_lengthHalf hlen, BitVec.toNat_ofNat, hlength,
      ← List.length_eq_zero_iff]
    omega
  have hbyte : (sent ++ v :: todo)[(BitVec.ofNat 16 sent.length).toNat]? = some v := by simp [hidx]
  rw [bodyStage, ← if_congr hlast rfl rfl]
  refine step_emitting ((emitStep_eq _).trans (execEPayload_next_iff.2 ⟨v, hbyte, ?_⟩))
  rw [← hnext]
  rfl

theorem step_eCrcHi (p : List Byte) (n : Nat) (out : List Byte) (s : State) :
    step (emitting p .eCrcHi n out s) =
      .next (emitting p .eCrcLo n (out ++ [hiOf (crc16 p)]) s) :=
  step_emitting (emitStep_eq _)

theorem step_eCrcLo (p : List Byte) (n : Nat) (out : List Byte) (s : State) :
    step (emitting p .eCrcLo n out s) =
      .next (emitting p .eEnd n (out ++ [loOf (crc16 p)]) s) :=
  step_emitting (emitStep_eq _)

/-- The end delimiter; after it the encoder is at rest (R97). -/
theorem step_eEnd (p : List Byte) (n : Nat) (out : List Byte) (s : State) :
    step (emitting p .eEnd n out s) =
      .next (encoderIdle { s with pending := [], sink := s.sink ++ (out ++ [0x03]) }) := by
  rw [← List.append_assoc, step_eq]
  exact emitStep_eq _

theorem runSteps_succ {s t : State} (h : step s = .next t) (n : Nat) :
    runSteps (n + 1) s = runSteps n t := by
  rw [runSteps, h, andThen_next]

/-- The steps of the header, in either form (R90 to R93). -/
theorem emit_header {p : List Byte} (hlen : p.length ≤ 65535) (s : State) :
    runSteps (frameHeader p).length (emitting p .eStart 0 [] s) =
      .next (emitting p (bodyStage p) 0 (frameHeader p) s) := by
  unfold frameHeader
  by_cases hshort : shortForm (lengthHalf p) = true
  · rw [if_pos hshort]
    calc runSteps 2 (emitting p .eStart 0 [] s)
        = runSteps 1 (emitting p .eLenShort 0 [0x02] s) :=
          runSteps_succ (step_eStart_short hshort 0 [] s) 1
      _ = .next (emitting p (bodyStage p) 0 (shortHeader p) s) :=
          runSteps_succ (step_eLenShort hlen 0 _ s) 0
  · have hne : p ≠ [] := by rintro rfl; exact hshort rfl
    rw [if_neg hshort, bodyStage, if_neg hne]
    calc runSteps 3 (emitting p .eStart 0 [] s)
        = runSteps 2 (emitting p .eLenHi 0 [0x03] s) :=
          runSteps_succ (step_eStart_long hshort 0 [] s) 2
      _ = runSteps 1 (emitting p .eLenLo 0 _ s) := runSteps_succ (step_eLenHi p 0 _ s) 1
      _ = .next (emitting p .ePayload 0 (longHeader p) s) := runSteps_succ (step_eLenLo p 0 _ s) 0

/-- The steps of the payload, from the first byte that is not sent yet (R94). -/
theorem emit_payload (sent todo out : List Byte) (s : State)
    (hlen : (sent ++ todo).length ≤ 65535) :
    runSteps todo.length (emitting (sent ++ todo) (bodyStage todo) sent.length out s) =
      .next (emitting (sent ++ todo) .eCrcHi (sent ++ todo).length (out ++ todo) s) := by
  induction todo generalizing sent out with
  | nil => simp [runSteps, bodyStage]
  | cons v todo ih =>
    have hothers := ih (sent ++ [v]) (out ++ [v]) (by simpa using hlen)
    simp only [List.append_assoc, List.singleton_append,
      List.length_append (as := sent) (bs := [v]), List.length_singleton] at hothers
    exact (runSteps_succ (step_ePayload hlen out s) todo.length).trans hothers

/-- The steps of the trailer (R95 to R97). -/
theorem emit_trailer (p : List Byte) (n : Nat) (out : List Byte) (s : State) :
    runSteps 3 (emitting p .eCrcHi n out s) =
      .next (encoderIdle { s with
        pending := [], sink := s.sink ++ (out ++ [hiOf (crc16 p), loOf (crc16 p), 0x03]) }) := by
  rw [runSteps_succ (step_eCrcHi p n out s), runSteps_succ (step_eCrcLo p n _ s),
    runSteps_succ (step_eEnd p n _ s)]
  simp [runSteps]

/-- Settles O49: the request, the header, the payload (by induction) and the trailer in turn. -/
theorem emissionStepsMakeUpEncode : Obligations.EmissionStepsMakeUpEncode := by
  intro s p hlen hidle
  have hencode : exec (.encode p) { s with pending := [] } =
      .next (encoderIdle { s with pending := [], sink := s.sink ++ encodeFrame p }) :=
    execEncode_next_iff.2 ⟨encodeRefusal_eq_none_iff.2 ⟨hlen, hidle⟩, rfl⟩
  have hcount : (encodeFrame p).length = (frameHeader p).length + p.length + 3 := by
    simp [encodeFrame_eq, Nat.add_assoc]
  have hbody : runSteps p.length (emitting p (bodyStage p) 0 (frameHeader p) s) =
      .next (emitting p .eCrcHi p.length (frameHeader p ++ p) s) :=
    emit_payload [] p (frameHeader p) s hlen
  refine ⟨?_, _, hencode⟩
  rw [hencode, runSteps_succ (step_encodeRequest hlen hidle), hcount, runSteps_add, runSteps_add,
    emit_header hlen, andThen_next, hbody, andThen_next, emit_trailer, ← encodeFrame_eq]

end Sys2Proof.Machine

/-! ### The operation map (R54, R55, R60) -/

namespace Sys2Proof

/-- The map answers through the first row that selects the stage and byte. -/
theorem decodeRx_eq_ok_iff {st : Stage} {b : Byte} {i : Instr} :
    decodeRx st b = .ok i ↔ ∃ r, rxRows.find? (·.selects st b) = some r ∧ r.op b = i := by
  unfold decodeRx
  split <;> simp [*]

theorem RxRow.selects_iff {r : RxRow} {st : Stage} {b : Byte} :
    r.selects st b = true ↔ r.stage = st ∧ b &&& r.mask = r.wanted := by
  simp [RxRow.selects]

/-- The map is total (R54). -/
theorem decodeRx_total (st : Stage) (b : Byte) : ∃ i, decodeRx st b = .ok i := by
  cases st with
  | awaitStart => exact ⟨_, decodeRx_awaitStart b⟩
  | lenShort => exact ⟨_, decodeRx_lenShort b⟩
  | lenHi => exact ⟨_, decodeRx_lenHi b⟩
  | lenLo => exact ⟨_, decodeRx_lenLo b⟩
  | payload => exact ⟨_, decodeRx_payload b⟩
  | crcHi => exact ⟨_, decodeRx_crcHi b⟩
  | crcLo => exact ⟨_, decodeRx_crcLo b⟩
  | awaitEnd => exact ⟨_, decodeRx_awaitEnd b⟩

/-- Settles O2: the map is total, so a first row is found, and it splits the table. -/
theorem everyStageAndByteSelectsOneRow : Obligations.EveryStageAndByteSelectsOneRow := by
  intro st b
  obtain ⟨i, hi⟩ := decodeRx_total st b
  obtain ⟨r, hfind, rfl⟩ := decodeRx_eq_ok_iff.1 hi
  obtain ⟨hr, before, after, hrows, hbefore⟩ := List.find?_eq_some_iff_append.1 hfind
  obtain ⟨hstage, htest⟩ := RxRow.selects_iff.1 hr
  refine ⟨before, r, after, hrows, hstage, htest, fun q hq hsel => ?_, hi⟩
  simpa [RxRow.selects_iff.2 hsel] using hbefore q hq

/-- `D.NOISE` stands for every byte but the two start delimiters (R65). -/
theorem wellFormed_dNoise_iff {b : Byte} :
    (Instr.dNoise b).wellFormed = true ↔ b ≠ 0x02 ∧ b ≠ 0x03 := by
  simp [Instr.wellFormed]

/-- `D.END_BAD` stands for every byte but the end delimiter (R74). -/
theorem wellFormed_dEndBad_iff {b : Byte} : (Instr.dEndBad b).wellFormed = true ↔ b ≠ 0x03 := by
  simp [Instr.wellFormed]

/-- Settles O3: the two rows for all other bytes of a stage need R65's and R74's operand checks. -/
theorem encodedOperationsDecodeBack : Obligations.EncodedOperationsDecodeBack := by
  intro i hwf
  cases i
  case dStartShort => exact decodeRx_awaitStart 0x02
  case dStartLong => exact decodeRx_awaitStart 0x03
  case dNoise b =>
    obtain ⟨h2, h3⟩ := wellFormed_dNoise_iff.1 hwf
    exact (decodeRx_awaitStart b).trans (by rw [if_neg h2, if_neg h3])
  case dLenShort b => exact decodeRx_lenShort b
  case dLenHi b => exact decodeRx_lenHi b
  case dLenLo b => exact decodeRx_lenLo b
  case dPayload b => exact decodeRx_payload b
  case dCrcHi b => exact decodeRx_crcHi b
  case dCrcLo b => exact decodeRx_crcLo b
  case dEndOk => exact decodeRx_awaitEnd 0x03
  case dEndBad b =>
    exact (decodeRx_awaitEnd b).trans (by rw [if_neg (wellFormed_dEndBad_iff.1 hwf)])
  all_goals rfl

/-- Only the `else` rows carry a byte that the other rows of the stage have refused (R54). -/
theorem decodeRx_encodeBack {st : Stage} {b : Byte} {i : Instr} (h : decodeRx st b = .ok i) :
    i.wellFormed = true ∧ encode i = .rx st b := by
  cases st with
  | awaitStart =>
    rw [decodeRx_awaitStart] at h
    split_ifs at h with h2 h3 <;> cases h
    · exact ⟨rfl, by rw [h2]; rfl⟩
    · exact ⟨rfl, by rw [h3]; rfl⟩
    · exact ⟨wellFormed_dNoise_iff.2 ⟨h2, h3⟩, rfl⟩
  | lenShort => rw [decodeRx_lenShort] at h; cases h; exact ⟨rfl, rfl⟩
  | lenHi => rw [decodeRx_lenHi] at h; cases h; exact ⟨rfl, rfl⟩
  | lenLo => rw [decodeRx_lenLo] at h; cases h; exact ⟨rfl, rfl⟩
  | payload => rw [decodeRx_payload] at h; cases h; exact ⟨rfl, rfl⟩
  | crcHi => rw [decodeRx_crcHi] at h; cases h; exact ⟨rfl, rfl⟩
  | crcLo => rw [decodeRx_crcLo] at h; cases h; exact ⟨rfl, rfl⟩
  | awaitEnd =>
    rw [decodeRx_awaitEnd] at h
    split_ifs at h with h3 <;> cases h
    · exact ⟨rfl, by rw [h3]; rfl⟩
    · exact ⟨wellFormed_dEndBad_iff.2 h3, rfl⟩

theorem decodeTx_encodeBack {e : EStage} {i : Instr} (h : decodeTx e = .ok i) :
    i.wellFormed = true ∧ encode i = .tx e := by
  cases e <;> cases h <;> exact ⟨rfl, rfl⟩

/-- Settles O4, for the receive and the transmit words in turn. -/
theorem selectedOperationsEncodeBack : Obligations.SelectedOperationsEncodeBack :=
  ⟨fun _ _ _ h => decodeRx_encodeBack h, fun _ _ h => decodeTx_encodeBack h⟩

/-- Settles O1: each word computes to its operation. -/
theorem sampleWordsSelectTheirOperations : Obligations.SampleWordsSelectTheirOperations :=
  ⟨rfl, rfl, rfl, rfl, rfl, rfl, rfl, rfl, rfl, rfl, rfl, rfl, rfl, rfl⟩

end Sys2Proof

namespace Sys2Proof.Machine

/-- The one byte an emission step pushes; that of a delimiter meets its row's test (R55, R60). -/
theorem emission_pushes {i : Instr} {e : EStage} {s t : State} (hi : encode i = .tx e)
    (h : exec i s = .next t) :
    ∃ v, t.sink = s.sink ++ [v] ∧ (i = .eStart → v &&& 0xFE = 0x02) ∧ (i = .eEnd → v = 0x03) := by
  cases i
  case eStart =>
    obtain rfl := Host.Outcome.next.inj ((execEStart_eq s).symm.trans h)
    exact ⟨_, rfl, fun _ => by split <;> decide, nofun⟩
  case ePayload =>
    obtain ⟨v, -, rfl⟩ := execEPayload_next_iff.1 h
    exact ⟨v, rfl, nofun, nofun⟩
  case eEnd => cases h; exact ⟨_, rfl, nofun, fun _ => rfl⟩
  case eLenShort | eLenHi | eLenLo | eCrcHi | eCrcLo => cases h; exact ⟨_, rfl, nofun, nofun⟩
  all_goals cases hi

/-- Settles O50: what is pushed, and the frame of an encoder operation. -/
theorem emissionStepsPushOneTableByte : Obligations.EmissionStepsPushOneTableByte :=
  fun _ e _ _ hi h => ⟨emission_pushes hi h, EncoderOperation.frame (.inl ⟨e, hi⟩) h⟩

end Sys2Proof.Machine

/-! ### Every byte is taken (R61) -/

namespace Sys2Proof.Machine

/-- The part of a byte-step before the reaction leaves the other stimuli and keeps the sample. -/
theorem byteBody_afterPrologue_frame {s u : State} {b : Byte} {now : Nat}
    (h : byteBody b (afterPrologue now s) = .next u) :
    u.pending = s.pending ∧ u.lastActivityTime = now := by
  have hpro := afterPrologue_frame now s
  rw [byteBody_frame h]
  exact ⟨(congrArg State.pending hpro :), (congrArg State.lastActivityTime hpro :)⟩

/-- Settles O19: the prologue keeps the invariants, with them the body goes on, and so does the
reaction. -/
theorem everyByteIsAccepted : Obligations.EveryByteIsAccepted := by
  intro s b now rest h hp hle hw
  have hrest : DecoderInv { s with pending := rest } := h.decoder.congr rfl
  obtain ⟨u, hu⟩ := (afterPrologue_decoderInv hrest hw).byteBody_next b
  obtain ⟨hc, oc, hreact⟩ := react_eq u
  obtain ⟨hpending, htime⟩ := byteBody_afterPrologue_frame hu
  exact ⟨_, (step_rxByte hp hle hw).trans (andThen_next_iff.2 ⟨u, hu, hreact⟩), hpending, htime⟩

end Sys2Proof.Machine

/-! ### Frames of either form, with any declared checksum and end byte (R83, R84) -/

namespace Sys2Proof.Machine

theorem byteBody_startShort {s : State} (h : s.stage = .awaitStart) :
    byteBody 0x02 s = execDStartShort s := by
  rw [byteBody_eq, h]
  rfl

theorem byteBody_lenShort {s : State} (h : s.stage = .lenShort) (b : Byte) :
    byteBody b s = execDLenShort b s := by
  rw [byteBody_eq, h]

theorem byteBody_endBad {s : State} (h : s.stage = .awaitEnd) {b : Byte} (hb : b ≠ 0x03) :
    byteBody b s = execDEndBad b s := by
  rw [byteBody_eq, h]
  exact if_neg hb

/-- A length below 256 is its low byte (R47, R66). -/
theorem zext16_loOf {v : Half} (h : v.toNat < 256) : zext16 (loOf v) = v := by
  apply BitVec.eq_of_toNat_eq
  rw [toNat_zext16, toNat_loOf, Nat.mod_eq_of_lt h]

/-- The short-form header declares the length of a payload below 256 bytes (R45, R66). -/
theorem feeds_shortHeader {p : List Byte} (hshort : p.length < 256) :
    Feeds (Header p .awaitStart) (shortHeader p) (Storing p 0) := by
  have htarget : zext16 (loOf (lengthHalf p)) = lengthHalf p :=
    zext16_loOf (by rwa [toNat_lengthHalf (by omega)])
  have hstart : Feeds (Header p .awaitStart) [0x02] (Header p .lenShort) :=
    .single fun s now later hs =>
      ⟨_, byteBody_startShort (s := arrived now later s) hs.stage_eq, rfl, rfl, hs.fits⟩
  have hlen : Feeds (Header p .lenShort) [loOf (lengthHalf p)] (Storing p 0) :=
    .single fun s now later hs =>
      ⟨_, byteBody_lenShort (s := arrived now later s) hs.stage_eq _,
        storing_enterPayload htarget hs.fits⟩
  exact hstart.append hlen

theorem Declares.feeds {header p : List Byte} (h : Declares header p) :
    Feeds (Header p .awaitStart) header (Storing p 0) := by
  obtain rfl | ⟨rfl, hshort⟩ := h
  · exact feeds_longHeader p
  · exact feeds_shortHeader hshort

/-- The encoder's choice of form (R47). -/
theorem declares_frameHeader {p : List Byte} (hlen : p.length ≤ 65535) :
    Declares (frameHeader p) p := by
  unfold frameHeader
  split
  next hshort =>
    have hlt : (lengthHalf p).toNat < 256 := BitVec.lt_def.1 (of_decide_eq_true hshort)
    exact .inr ⟨rfl, toNat_lengthHalf hlen ▸ hlt⟩
  next => exact .inl rfl

/-- The end byte after another checksum than the payload's (R73). -/
theorem Trailer.byteBody_crcError {p : List Byte} {c : Half} {s : State}
    (h : Trailer p .awaitEnd c s) (hc : c ≠ crc16 p) :
    byteBody 0x03 s = .next (raiseError .crcError s) := by
  have hlen : p.length = s.targetLength.toNat := by rw [h.target, toNat_lengthHalf_of_fits h.fits]
  rw [byteBody_endOk h.stage_eq, execDEndOk_of_payload hlen h.fits h.stored,
    if_neg (h.acc_eq ▸ hc.symm)]

theorem raiseError_atRest (k : ErrorKind) (s : State) : AtRest (raiseError k s) :=
  ⟨rfl, rfl, rfl, rfl, rfl⟩

/-- Settles O21: the encoder's frame declares its payload's length and its checksum, so that its end
byte completes it. -/
theorem decodingAnEncodedFrameGivesThePayload :
    Obligations.DecodingAnEncodedFrameGivesThePayload := by
  intro s p times rest hstage hfits hlen htime hp
  have hbound : p.length ≤ 65535 := by have := s.cfg.maxCapacity.isLt; omega
  exact runEvents_wireFrame (declares_frameHeader hbound).feeds
    (fun t ht => ⟨_, ht.byteBody_end, rfl, complete_atRest p t⟩) hstage hfits hlen htime hp

/-- Settles O22: the bytes before the end byte give no event, and the end byte finds the checksums
different. -/
theorem wrongChecksumGivesOneCrcError : Obligations.WrongChecksumGivesOneCrcError := by
  intro s header p c times rest hstage hfits hdeclares hc hlen htime hp
  exact runEvents_wireFrame hdeclares.feeds
    (fun t ht => ⟨_, ht.byteBody_crcError hc, rfl, raiseError_atRest _ t⟩)
    hstage hfits hlen htime hp

/-- Settles O23: the bytes before the end byte give no event, and a wrong end byte raises whatever
was declared. -/
theorem wrongEndGivesOneEndByteError : Obligations.WrongEndGivesOneEndByteError := by
  intro s header p c e times rest hstage hfits hdeclares he hlen htime hp
  exact runEvents_wireFrame hdeclares.feeds
    (fun t ht => ⟨_, byteBody_endBad ht.stage_eq he, rfl, raiseError_atRest _ t⟩)
    hstage hfits hlen htime hp

/-! ### A declared length over the capacity (R69, R84) -/

/-- In a stage before the length is known, with no room for `n` bytes. -/
structure NoRoom (n : Nat) (stage : Stage) (s : State) : Prop where
  stage_eq : s.stage = stage
  exceeds : s.cfg.maxCapacity.toNat < n

/-- In `LenLo`, with the high byte of a length for which there is no room (R67). -/
def OverlongHalf (hi lo : Byte) (s : State) : Prop :=
  NoRoom (256 * hi.toNat + lo.toNat) .lenLo s ∧ s.targetLength = highByte hi

/-- Payload entry with a length over the capacity; the length goes with the frame (R69, R116). -/
theorem enterPayload_overCapacity {s : State} {n : Half}
    (h : s.cfg.maxCapacity.toNat < n.toNat) :
    enterPayload { s with targetLength := n } = raiseError .memoryError s :=
  (enterPayload_eq _).trans (if_pos (BitVec.lt_def.2 h))

theorem byteBody_lenShort_overCapacity {n : Byte} {s : State} (h : NoRoom n.toNat .lenShort s) :
    ∃ t, byteBody n s = .next t ∧ t.event = .error .memoryError ∧ AtRest t := by
  have hover : s.cfg.maxCapacity.toNat < (zext16 n).toNat := by simpa using h.exceeds
  rw [byteBody_lenShort h.stage_eq, execDLenShort, enterPayload_overCapacity hover]
  exact ⟨_, rfl, rfl, raiseError_atRest _ _⟩

theorem byteBody_lenLo_overCapacity {hi lo : Byte} {s : State} (h : OverlongHalf hi lo s) :
    ∃ t, byteBody lo s = .next t ∧ t.event = .error .memoryError ∧ AtRest t := by
  obtain ⟨hroom, htarget⟩ := h
  have hover : s.cfg.maxCapacity.toNat < (joinLow s.targetLength lo).toNat := by
    simpa [htarget, toNat_joinLow (loOf_highByte hi)] using hroom.exceeds
  rw [byteBody_lenLo hroom.stage_eq, execDLenLo, enterPayload_overCapacity hover]
  exact ⟨_, rfl, rfl, raiseError_atRest _ _⟩

/-- The short-form header of a length over the capacity (R66). -/
theorem runEvents_overlongShort {n : Byte} {s : State} {rest : List Stimulus}
    (h : NoRoom n.toNat .awaitStart s) (hfed : Fed s [0x02, n] rest) :
    ∃ t, runEvents 2 s = some (t, onlyLast 2 (.error .memoryError)) ∧ AtRest t ∧
      t.pending = rest := by
  have hstart : Feeds (NoRoom n.toNat .awaitStart) [0x02] (NoRoom n.toNat .lenShort) :=
    .single fun s now later hs =>
      ⟨_, byteBody_startShort (s := arrived now later s) hs.stage_eq, rfl, rfl, hs.exceeds⟩
  exact hstart.runEvents_last
    (fun t now later ht => byteBody_lenShort_overCapacity ⟨ht.stage_eq, ht.exceeds⟩) h hfed

/-- The long-form header of a length over the capacity; its high byte alone raises nothing (R67,
R68). -/
theorem runEvents_overlongLong {hi lo : Byte} {s : State} {rest : List Stimulus}
    (h : NoRoom (256 * hi.toNat + lo.toNat) .awaitStart s) (hfed : Fed s [0x03, hi, lo] rest) :
    ∃ t, runEvents 3 s = some (t, onlyLast 3 (.error .memoryError)) ∧ AtRest t ∧
      t.pending = rest := by
  have hstart : Feeds (NoRoom (256 * hi.toNat + lo.toNat) .awaitStart) [0x03]
      (NoRoom (256 * hi.toNat + lo.toNat) .lenHi) :=
    .single fun s now later hs =>
      ⟨_, byteBody_startLong (s := arrived now later s) hs.stage_eq, rfl, rfl, hs.exceeds⟩
  have hhigh : Feeds (NoRoom (256 * hi.toNat + lo.toNat) .lenHi) [hi] (OverlongHalf hi lo) :=
    .single fun s now later hs =>
      ⟨_, byteBody_lenHi (s := arrived now later s) hs.stage_eq _, rfl, ⟨rfl, hs.exceeds⟩, rfl⟩
  exact (hstart.append hhigh).runEvents_last
    (fun t now later ⟨ht, htarget⟩ =>
      byteBody_lenLo_overCapacity ⟨⟨ht.stage_eq, ht.exceeds⟩, htarget⟩) h hfed

/-- Settles O24: the error leaves `AwaitStart`, from which every encoded frame decodes (R83). -/
theorem overlongLengthGivesOneMemoryError : Obligations.OverlongLengthGivesOneMemoryError := by
  intro s header times rest hstage hover hlen htime hp
  have hfed : Fed s header rest := ⟨times, hlen, htime, fun h => absurd hstage h, hp⟩
  have herror : ∃ t, runEvents header.length s =
      some (t, onlyLast header.length (.error .memoryError)) ∧ AtRest t ∧ t.pending = rest := by
    obtain ⟨n, rfl, hn⟩ | ⟨hi, lo, rfl, hn⟩ := hover
    · exact runEvents_overlongShort ⟨hstage, hn⟩ hfed
    · exact runEvents_overlongLong ⟨hstage, hn⟩ hfed
  obtain ⟨t, hrun, hrest, hpending⟩ := herror
  refine ⟨t, hrun, hrest, hpending, fun q later rest' hfits hlen' htime' hlater => ?_⟩
  obtain ⟨u, hu, -⟩ := decodingAnEncodedFrameGivesThePayload t q later rest' hrest.1 hfits hlen'
    htime' (hpending.trans hlater)
  exact ⟨u, hu⟩

end Sys2Proof.Machine

/-! ### A received byte as a step, from a state in any stage (R61, R62) -/

namespace Sys2Proof.Machine

/-- What a step whose stimulus is a byte can have been: the sample was good, the body went on, and
the reaction wrote at most its two records of calls. -/
theorem step_rxByte_next {s t : State} {b : Byte} {now : Nat} {rest : List Stimulus}
    (hp : s.pending = .rxByte b now :: rest) (h : step s = .next t) :
    s.lastActivityTime ≤ now ∧ exceededWidth s.cfg now = none ∧
      ∃ u hc oc, byteBody b (afterPrologue now { s with pending := rest }) = .next u ∧
        react u = .next t ∧ t = { u with handlerCalls := hc, observerCalls := oc } := by
  obtain ⟨hnil, -⟩ | ⟨x, rest', hp', hx⟩ := step_cases h
  · cases hp.symm.trans hnil
  cases hp.symm.trans hp'
  obtain ⟨b', now', hbyte, hstep⟩ | ⟨hx, -⟩ | ⟨hx, -⟩ | ⟨_, hx, -⟩ | ⟨hx, -⟩ | ⟨_, hx, -⟩ |
    ⟨_, hx, -⟩ | ⟨_, hx, -⟩ := hx
  · cases hbyte
    exact hstep
  all_goals cases hx

/-- With no timeout the body runs in the stage the byte finds (R62). -/
theorem step_rxByte_inTime {s : State} {b : Byte} {now : Nat} {rest : List Stimulus}
    (hp : s.pending = .rxByte b now :: rest) (hle : s.lastActivityTime ≤ now)
    (hw : exceededWidth s.cfg now = none) (hquiet : timeoutExpired s now = false) :
    step s = andThen (byteBody b (arrived now rest s)) react := by
  rw [← afterPrologue_eq_arrived hquiet]
  exact step_rxByte hp hle hw

theorem timeoutExpired_iff {s : State} {now : Nat} :
    timeoutExpired s now = true ↔ s.cfg.timeoutEn = true ∧ s.stage ≠ .awaitStart ∧
      s.cfg.timeoutInterval < now - s.lastActivityTime := by
  simp only [timeoutExpired, Bool.and_eq_true, decide_eq_true_eq]
  tauto

theorem timeoutExpired_of_disabled {s : State} (h : s.cfg.timeoutEn = false) (now : Nat) :
    timeoutExpired s now = false := by
  simp [timeoutExpired, h]

/-! ### The decoder does not observe the clock and the other stimuli (R86) -/

/-- `s` with another last sample and other stimuli pending. -/
def onClock (last : Nat) (later : List Stimulus) (s : State) : State :=
  { s with lastActivityTime := last, pending := later }

theorem enterPayload_onClock (last : Nat) (later : List Stimulus) (s : State) :
    enterPayload (onClock last later s) = onClock last later (enterPayload s) := by
  simp only [enterPayload_eq, apply_ite (onClock last later)]
  rfl

theorem readPayload_onClock (last : Nat) (later : List Stimulus) (s : State) :
    readPayload (onClock last later s) = readPayload s :=
  readRange_congr (s := onClock last later s) (t := s) rfl rfl 0 _

/-- The body of a byte-step, stage by stage: none reads the clock. -/
theorem byteBody_onClock {b : Byte} {s t : State} (h : byteBody b s = .next t) (last : Nat)
    (later : List Stimulus) :
    byteBody b (onClock last later s) = .next (onClock last later t) := by
  have hstage : (onClock last later s).stage = s.stage := rfl
  rw [byteBody_eq] at h ⊢
  rw [hstage]
  cases hs : s.stage <;> simp only [hs] at h ⊢
  case awaitStart => split_ifs at h ⊢ <;> cases h <;> rfl
  case lenShort =>
    cases h
    exact congrArg Host.Outcome.next
      (enterPayload_onClock last later { s with targetLength := zext16 b })
  case lenLo =>
    cases h
    exact congrArg Host.Outcome.next
      (enterPayload_onClock last later { s with targetLength := joinLow s.targetLength b })
  case payload =>
    obtain ⟨hroom, rfl⟩ := execDPayload_next_iff.1 h
    exact execDPayload_next_iff.2 ⟨hroom, rfl⟩
  case awaitEnd =>
    split_ifs at h ⊢
    · obtain ⟨p, hp, rfl⟩ := execDEndOk_next_iff.1 h
      refine execDEndOk_next_iff.2 ⟨p, (readPayload_onClock last later s).trans hp, ?_⟩
      exact apply_ite (onClock last later) _ _ _
    · cases h; rfl
  all_goals cases h; rfl

/-- The reaction reads the event, the slots and the number of calls (R109, R113). -/
theorem react_onClock {s t : State} (h : react s = .next t) (last : Nat)
    (later : List Stimulus) :
    react (onClock last later s) = .next (onClock last later t) := by
  have hevent : (onClock last later s).event = s.event := rfl
  unfold react at h ⊢
  rw [hevent]
  split at h
  · cases h; rfl
  · cases h; rfl
  · simp only [exec, execDispatch, dispatchMessage_eq] at h ⊢
    cases h; rfl
  · simp only [exec, execReport, reportKind_eq] at h ⊢
    cases h; rfl

/-- With the timeout disabled another good sample has the same effect but for the time. -/
theorem step_onClock {s t : State} {b : Byte} {now now' last : Nat} {rest rest' : List Stimulus}
    (hoff : s.cfg.timeoutEn = false) (hp : s.pending = .rxByte b now :: rest)
    (h : step s = .next t) (hle : last ≤ now') (hw : exceededWidth s.cfg now' = none) :
    step (onClock last (.rxByte b now' :: rest') s) = .next (onClock now' rest' t) := by
  obtain ⟨-, -, u, -, -, hbody, hreact, -⟩ := step_rxByte_next hp h
  rw [afterPrologue_eq_arrived (timeoutExpired_of_disabled hoff now)] at hbody
  have hquiet :=
    timeoutExpired_of_disabled (s := onClock last (.rxByte b now' :: rest') s) hoff now'
  have hstep := step_rxByte_inTime (s := onClock last _ s) rfl hle hw hquiet
  exact hstep.trans (andThen_next_iff.2
    ⟨_, byteBody_onClock hbody now' rest', react_onClock hreact now' rest'⟩)

theorem runEvents_succ_iff {n : Nat} {s u : State} {es : List Event} :
    runEvents (n + 1) s = some (u, es) ↔
      ∃ t later, step s = .next t ∧ runEvents n t = some (u, later) ∧ es = t.event :: later := by
  rw [runEvents]
  cases step s with
  | next t =>
    cases hrun : runEvents n t with
    | none => simp [hrun]
    | some x => simp [hrun, Prod.ext_iff, eq_comm]
  | fault r => simp
  | refused r => simp

/-- Byte by byte, the two runs stay equal but for the clock. -/
theorem runEvents_onClock {bytes : List Byte} {times times' : List Nat} {s u : State}
    {es : List Event} {last : Nat} (hoff : s.cfg.timeoutEn = false)
    (hlen : times.length = bytes.length) (hlen' : times'.length = bytes.length)
    (htime : NeverDecreasing s.cfg last times') (hp : s.pending = rxStream bytes times)
    (hrun : runEvents bytes.length s = some (u, es)) :
    ∃ final, runEvents bytes.length (onClock last (rxStream bytes times') s) =
      some ({ u with lastActivityTime := final }, es) := by
  induction bytes generalizing times times' s es last with
  | nil =>
    cases hrun
    refine ⟨last, ?_⟩
    rw [hp]
    rfl
  | cons b bytes ih =>
    obtain _ | ⟨now, times⟩ := times
    · cases hlen
    obtain _ | ⟨now', times'⟩ := times'
    · cases hlen'
    obtain ⟨hle, hw, hlater⟩ := htime
    obtain ⟨t, later, hstep, hrest, rfl⟩ := runEvents_succ_iff.1 hrun
    obtain ⟨-, -, v, hc, oc, hbody, -, ht⟩ := step_rxByte_next hp hstep
    have hpending : t.pending = rxStream bytes times :=
      ht ▸ (byteBody_afterPrologue_frame hbody).1
    have hcfg : t.cfg = s.cfg := step_cfg hstep
    obtain ⟨final, hfinal⟩ := ih (hcfg ▸ hoff) (Nat.succ.inj hlen) (Nat.succ.inj hlen')
      (hcfg.symm ▸ hlater) hpending hrest
    exact ⟨final, runEvents_succ_iff.2
      ⟨_, later, step_onClock hoff hp hstep hle hw, hfinal, rfl⟩⟩

/-- Settles O30, by induction over the stream. -/
theorem eventsDependOnTheBytesAlone : Obligations.EventsDependOnTheBytesAlone := by
  intro s u bytes times times' es hoff hlen hlen' htime hrun
  obtain ⟨final, hfinal⟩ := runEvents_onClock (s := { s with pending := rxStream bytes times })
    hoff hlen hlen' htime rfl hrun
  exact ⟨_, hfinal, rfl⟩

end Sys2Proof.Machine

/-! ### The decoder's operations, one by one (R62 to R76) -/

namespace Sys2Proof.Machine

/-- A byte-step's body is the operation its word selects (R54). -/
theorem byteBody_of_decode {s : State} {b : Byte} {i : Instr}
    (h : decode (.rx s.stage b) = .ok i) : byteBody b s = exec i s := by
  rw [byteBody, h]

/-- The encoder's turn is the emission step the sequencer selects (R55). -/
theorem emitStep_of_decode {s : State} {i : Instr} (h : decode (.tx s.estage) = .ok i) :
    emitStep s = exec i s := by
  rw [emitStep, h]

theorem step_of_pending {s : State} {x : Stimulus} {rest : List Stimulus}
    (hp : s.pending = x :: rest) : step s = perform x { s with pending := rest } := by
  rw [step_eq, hp]

/-- A soft reset abandons the frame at once, in every stage (R75). -/
theorem step_softReset {s : State} {rest : List Stimulus} (hp : s.pending = .softReset :: rest) :
    step s = .next (clear { s with pending := rest, event := .noEvent }) :=
  step_of_pending hp

/-- Settles O5: each kind of stimulus performs what its word selects. -/
theorem stepRunsTheSelectedOperation : Obligations.StepRunsTheSelectedOperation := by
  refine ⟨fun s s1 b now rest i hp hpro hi => ?_, fun s rest i hp hi => ?_,
    fun s rest i hp hi => ?_, fun s i hp hi => ?_, fun s f rest i hp hi => ?_⟩
  · rw [step_of_pending hp, perform, byteStep, hpro, andThen_next, byteBody_of_decode hi]
  · cases hi; exact step_of_pending hp
  · exact (step_of_pending hp).trans (emitStep_of_decode hi)
  · rw [step_eq, hp]; exact emitStep_of_decode hi
  · cases hi; exact step_of_pending hp

/-- Settles O6: the rows of `AwaitStart`. -/
theorem startBytesAndNoise : Obligations.StartBytesAndNoise :=
  ⟨decodeRx_awaitStart 0x02, decodeRx_awaitStart 0x03,
    fun b h2 h3 => (decodeRx_awaitStart b).trans (by rw [if_neg h2, if_neg h3]),
    fun _ => rfl, fun _ => rfl, fun _ _ => rfl⟩

/-- Payload entry with the length 0 (R69). -/
theorem enterPayload_zero (s : State) : enterPayload { s with targetLength := 0 } =
    { s with targetLength := 0, bytesConsumed := 0, stage := .crcHi } :=
  (enterPayload_eq _).trans ((if_neg BitVec.not_lt_zero).trans (if_pos rfl))

/-- Payload entry with a length that is not 0 and fits (R69). -/
theorem enterPayload_fits {s : State} {n : Half} (hne : n ≠ 0)
    (hfits : n.toNat ≤ s.cfg.maxCapacity.toNat) : enterPayload { s with targetLength := n } =
      { s with targetLength := n, bytesConsumed := 0, stage := .payload } :=
  (enterPayload_eq _).trans ((if_neg (BitVec.not_lt.2 hfits)).trans (if_neg hne))

theorem zext16_eq_zero_iff {b : Byte} : zext16 b = 0 ↔ b = 0 := by
  rw [← BitVec.toNat_inj, ← BitVec.toNat_inj, toNat_zext16]
  rfl

/-- Settles O7: payload entry with the byte itself as the length. -/
theorem shortLengthByteEntersPayload : Obligations.ShortLengthByteEntersPayload := by
  intro s b
  have hexec : exec (.dLenShort b) s =
    .next (enterPayload { s with targetLength := zext16 b }) := rfl
  have hlen := toNat_zext16 b
  refine ⟨decodeRx_lenShort b, fun hover => ?_, fun hzero => ?_, fun hne hfits =>
    ⟨zext16 b, hlen, ?_⟩⟩
  · rw [hexec, enterPayload_overCapacity (hlen ▸ hover)]
    rfl
  · rw [hexec, zext16_eq_zero_iff.2 hzero, enterPayload_zero]
  · rw [hexec, enterPayload_fits (mt zext16_eq_zero_iff.1 hne) (hlen ▸ hfits)]

/-- Settles O8: `256 * b` fits 16 bits. -/
theorem highLengthByteIsHeld : Obligations.HighLengthByteIsHeld :=
  fun _ b => ⟨decodeRx_lenHi b, highByte b, toNat_highByte b, rfl⟩

/-- Settles O9: payload entry with the two length bytes joined. -/
theorem lowLengthByteEntersPayload : Obligations.LowLengthByteEntersPayload := by
  intro s b
  have hexec : exec (.dLenLo b) s =
    .next (enterPayload { s with targetLength := joinLow s.targetLength b }) := rfl
  refine ⟨decodeRx_lenLo b, joinLow s.targetLength b, rfl, fun hlow => toNat_joinLow hlow b,
    fun hover => ?_, fun hzero => ?_, fun hne hfits => ?_⟩
  · rw [hexec, enterPayload_overCapacity hover]
    rfl
  · rw [hexec, hzero, enterPayload_zero]
  · rw [hexec, enterPayload_fits hne hfits]

/-- `MemRead` depends on the capacity and on the byte at its index only (R35). -/
theorem memRead_congr {s t : State} {a : Nat} (hc : t.cfg = s.cfg)
    (hr : t.pb.read a = s.pb.read a) : memRead t a = memRead s a := by
  rw [memRead, memRead, hc, hr]

/-- Settles O10: below the declared length the index is inside the capacity and the counter does not
wrap around. -/
theorem payloadByteIsStored : Obligations.PayloadByteIsStored := by
  intro s b
  refine ⟨decodeRx_payload b, fun hlt hle => ?_⟩
  have hroom : s.bytesConsumed < s.cfg.maxCapacity := by bv_omega
  refine ⟨_, execDPayload_next_iff.2 ⟨hroom, rfl⟩, ?_, fun a ha => ?_, toNat_succ_of_lt hlt, rfl,
    rfl⟩
  · exact memRead_ok_iff.2 ⟨hroom, Memory.read_write_same _ _ _⟩
  · exact memRead_congr rfl (Memory.read_write_other _ _ ha)

/-- Settles O11: the two bytes of a field, high byte first. -/
theorem checksumBytesAreAssembled : Obligations.ChecksumBytesAreAssembled :=
  fun s b => ⟨decodeRx_crcHi b, decodeRx_crcLo b, ⟨highByte b, toNat_highByte b, rfl⟩,
    joinLow s.crcAccumulator b, rfl, fun hlow => toNat_joinLow hlow b, rfl⟩

/-- Settles O12: the read of the buffer gives the payload, whose checksum decides. -/
theorem endByteComparesTheChecksum : Obligations.EndByteComparesTheChecksum := by
  refine ⟨decodeRx_awaitEnd 0x03, fun s p hlen hfits hread => ?_⟩
  have hend := execDEndOk_of_payload hlen hfits hread
  exact ⟨fun hsame => hend.trans (if_pos hsame), fun hdiffer => hend.trans (if_neg hdiffer)⟩

/-- Settles O13: the row of every other byte in `AwaitEnd`, which does not read the checksum. -/
theorem wrongEndByteIsAnError : Obligations.WrongEndByteIsAnError :=
  fun _ b => ⟨fun hb => (decodeRx_awaitEnd b).trans (by rw [if_neg hb]), rfl⟩

/-- Settles O14: the operation, and the step that performs it. -/
theorem softResetAbandonsTheFrame : Obligations.SoftResetAbandonsTheFrame :=
  ⟨rfl, fun _ => rfl, fun _ _ hp =>
    ⟨_, step_softReset hp, ⟨rfl, rfl, rfl, rfl, rfl⟩, rfl, rfl, rfl⟩⟩

/-! ### The next stage and the event of a byte-step (R77, R79, R82) -/

/-- Where a byte leads from `AwaitStart` (R63 to R65). -/
theorem byteBody_awaitStart {s : State} (h : s.stage = .awaitStart) (b : Byte) :
    byteBody b s = .next { s with
      stage := if b = 0x02 then .lenShort else if b = 0x03 then .lenHi else .awaitStart } := by
  rw [byteBody_eq, h]
  dsimp only
  split_ifs
  · rfl
  · rfl
  · rw [← h]; rfl

/-- The stage and the event of payload entry, by the length as a number (R69). -/
theorem enterPayload_outcome {s : State} {n : Nat} (hn : s.targetLength.toNat = n) :
    ((enterPayload s).stage, (enterPayload s).event) =
      if s.cfg.maxCapacity.toNat < n then (.awaitStart, .error .memoryError)
      else if n = 0 then (.crcHi, s.event) else (.payload, s.event) := by
  have hzero : n = 0 ↔ s.targetLength = 0 := hn ▸ BitVec.toNat_inj (y := 0)
  rw [enterPayload_eq]
  simp only [BitVec.lt_def, hn, hzero]
  split_ifs <;> rfl

/-- Payload entry gives no event of its own, or leaves the decoder at rest (R69, R79). -/
theorem enterPayload_quiet_or_atRest (s : State) :
    (enterPayload s).event = s.event ∨ AtRest (enterPayload s) := by
  rw [enterPayload_eq]
  split_ifs
  · exact .inr (raiseError_atRest _ s)
  · exact .inl rfl
  · exact .inl rfl

/-- The body of a byte-step gives no event of its own, or leaves the decoder at rest (R79). -/
theorem byteBody_quiet_or_atRest {b : Byte} {s t : State} (h : byteBody b s = .next t) :
    t.event = s.event ∨ AtRest t := by
  rw [byteBody_eq] at h
  cases hs : s.stage <;> simp only [hs] at h
  case awaitStart => split_ifs at h <;> cases h <;> exact .inl rfl
  case lenShort => cases h; exact enterPayload_quiet_or_atRest _
  case lenLo => cases h; exact enterPayload_quiet_or_atRest _
  case payload =>
    obtain ⟨-, rfl⟩ := execDPayload_next_iff.1 h
    exact .inl rfl
  case awaitEnd =>
    split_ifs at h
    · obtain ⟨p, -, rfl⟩ := execDEndOk_next_iff.1 h
      split
      · exact .inr (complete_atRest _ _)
      · exact .inr (raiseError_atRest _ _)
    · cases h
      exact .inr (raiseError_atRest _ _)
  all_goals cases h; exact .inl rfl

/-- The prologue's event, if any, is `ReceiveTimeout` (R62). -/
theorem afterPrologue_event (now : Nat) (s : State) :
    (afterPrologue now s).event = .noEvent ∨
      (afterPrologue now s).event = .error .receiveTimeout := by
  unfold afterPrologue
  split
  · exact .inr rfl
  · exact .inl rfl

/-- Settles O28: an event that is not the prologue's is one of the body. -/
theorem terminalEventsLeaveTheInitialState : Obligations.TerminalEventsLeaveTheInitialState := by
  intro s t b now rest hp hstep hnone htimeout
  obtain ⟨-, -, u, hc, oc, hbody, -, rfl⟩ := step_rxByte_next hp hstep
  refine ⟨?_, (byteBody_afterPrologue_frame hbody).2⟩
  obtain hquiet | hrest := byteBody_quiet_or_atRest hbody
  · obtain he | he := afterPrologue_event now { s with pending := rest }
    · exact absurd (hquiet.trans he) hnone
    · exact absurd (hquiet.trans he) htimeout
  · exact hrest

/-- In the stages of the payload and of the checksum the body goes on alike for any two bytes
(R82). -/
theorem DecoderInv.byteBody_notScanned {s : State} (h : DecoderInv s)
    (hs : s.stage = .payload ∨ s.stage = .crcHi ∨ s.stage = .crcLo) (b b' : Byte) :
    ∃ t t', byteBody b s = .next t ∧ byteBody b' s = .next t' ∧ t.event = s.event ∧
      t' = { t with pb := t'.pb, crcAccumulator := t'.crcAccumulator } := by
  obtain hs | hs | hs := hs
  · obtain ⟨hlt, hle⟩ := h.payload hs
    have hroom : s.bytesConsumed < s.cfg.maxCapacity := by bv_omega
    simp only [byteBody_payload hs]
    exact ⟨_, _, execDPayload_next_iff.2 ⟨hroom, rfl⟩, execDPayload_next_iff.2 ⟨hroom, rfl⟩, rfl,
      rfl⟩
  · simp only [byteBody_crcHi hs]
    exact ⟨_, _, rfl, rfl, rfl, rfl⟩
  · simp only [byteBody_crcLo hs]
    exact ⟨_, _, rfl, rfl, rfl, rfl⟩

/-- Settles O29: neither the body nor the reaction to no event tells the two bytes apart. -/
theorem payloadAndChecksumBytesAreNotScanned :
    Obligations.PayloadAndChecksumBytesAreNotScanned := by
  intro s b b' now rest h hstage hle hw hgap
  have hquiet : timeoutExpired s now = false := by
    rw [Bool.eq_false_iff, ne_eq, timeoutExpired_iff]
    rintro ⟨hon, -, hlong⟩
    exact absurd (hgap hon) (Nat.not_le.2 hlong)
  have harrived : DecoderInv (arrived now rest s) :=
    afterPrologue_eq_arrived hquiet ▸
      afterPrologue_decoderInv (s := { s with pending := rest }) (h.decoder.congr rfl) hw
  obtain ⟨t, t', ht, ht', hevent, hsame⟩ := harrived.byteBody_notScanned hstage b b'
  have hevent' : t'.event = .noEvent := hsame ▸ hevent
  refine ⟨t, t', ?_, ?_, hevent, hevent', hsame⟩
  · rw [step_rxByte_inTime (s := { s with pending := .rxByte b now :: rest }) rfl hle hw hquiet]
    exact andThen_next_iff.2 ⟨t, ht, react_noEvent hevent⟩
  · rw [step_rxByte_inTime (s := { s with pending := .rxByte b' now :: rest }) rfl hle hw hquiet]
    exact andThen_next_iff.2 ⟨t', ht', react_noEvent hevent'⟩

end Sys2Proof.Machine

/-! ### The table of R77, stage by stage -/

namespace Sys2Proof.Machine

theorem afterPrologue_expired {s : State} {now : Nat} (h : timeoutExpired s now = true) :
    afterPrologue now s = { raiseError .receiveTimeout s with lastActivityTime := now } :=
  if_pos h

/-- Below the declared length the test of `D.PAYLOAD` is that of the numbers (R70). -/
theorem succ_eq_iff_toNat {a b : Half} (h : a < b) : a + 1 = b ↔ a.toNat + 1 = b.toNat := by
  rw [← toNat_succ_of_lt h, BitVec.toNat_inj]

/-- What the end byte reports (R73). -/
theorem execDEndOk_event {s t : State} (h : execDEndOk s = .next t) :
    t.stage = .awaitStart ∧ ∃ p, readPayload s = .ok p ∧
      t.event = if crc16 p = s.crcAccumulator then .completed p else .error .crcError := by
  obtain ⟨p, hp, rfl⟩ := execDEndOk_next_iff.1 h
  split_ifs with hc
  · exact ⟨rfl, p, hp, (if_pos hc).symm⟩
  · exact ⟨rfl, p, hp, (if_neg hc).symm⟩

/-- Settles O26: with the timeout the byte is read in `AwaitStart`; without it, by the stages. -/
theorem nextStageTable : Obligations.NextStageTable := by
  refine ⟨fun s t b now rest h hp hstep => ?_, fun s rest hp => ⟨_, step_softReset hp, rfl⟩⟩
  obtain ⟨-, -, u, hc, oc, hbody, -, rfl⟩ := step_rxByte_next hp hstep
  have hdec := h.decoder
  intro expired start entered
  refine ⟨fun hexp => ?_, fun hexp => ?_⟩
  · have hafter := afterPrologue_expired (s := { s with pending := rest })
      (timeoutExpired_iff.2 hexp)
    rw [hafter, byteBody_awaitStart rfl] at hbody
    cases hbody
    exact ⟨rfl, rfl⟩
  have hquiet : timeoutExpired s now = false :=
    Bool.eq_false_iff.2 (mt timeoutExpired_iff.1 hexp)
  rw [afterPrologue_eq_arrived hquiet] at hbody
  cases hs : s.stage
  case awaitStart =>
    rw [byteBody_awaitStart (s := arrived now rest s) hs] at hbody
    cases hbody
    exact ⟨rfl, rfl⟩
  case lenShort =>
    rw [byteBody_lenShort (s := arrived now rest s) hs] at hbody
    cases hbody
    exact enterPayload_outcome (toNat_zext16 b)
  case lenHi =>
    rw [byteBody_lenHi (s := arrived now rest s) hs] at hbody
    cases hbody
    exact ⟨rfl, rfl⟩
  case lenLo =>
    rw [byteBody_lenLo (s := arrived now rest s) hs] at hbody
    cases hbody
    exact enterPayload_outcome (toNat_joinLow (hdec.halfLength hs).1 b)
  case payload =>
    rw [byteBody_payload (s := arrived now rest s) hs] at hbody
    obtain ⟨-, rfl⟩ := execDPayload_next_iff.1 hbody
    exact ⟨if_congr (succ_eq_iff_toNat (hdec.payload hs).1) rfl rfl, rfl⟩
  case crcHi =>
    rw [byteBody_crcHi (s := arrived now rest s) hs] at hbody
    cases hbody
    exact ⟨rfl, rfl⟩
  case crcLo =>
    rw [byteBody_crcLo (s := arrived now rest s) hs] at hbody
    cases hbody
    exact ⟨rfl, rfl⟩
  case awaitEnd =>
    by_cases hb : b = 0x03
    · subst hb
      rw [byteBody_endOk (s := arrived now rest s) hs] at hbody
      obtain ⟨hstart, p, hp, hevent⟩ := execDEndOk_event hbody
      have hread : readPayload s = readPayload (arrived now rest s) :=
        readRange_congr (s := s) (t := arrived now rest s) rfl rfl 0 _
      exact ⟨hstart, p, hread.trans hp, hevent⟩
    · rw [byteBody_endBad (s := arrived now rest s) hs hb] at hbody
      cases hbody
      refine ⟨rfl, ?_⟩
      rw [if_neg hb]
      rfl

end Sys2Proof.Machine

/-! ### The encoder's operations and the frames they push (R88 to R100) -/

namespace Sys2Proof.Machine

/-- The test of `E.START` as a test of the number (R90). -/
theorem shortForm_iff {n : Half} : shortForm n = true ↔ n.toNat < 256 := by
  simp [shortForm, BitVec.lt_def]

/-- Settles O43: the two forms by the test of `E.START`, then the bytes of `elen` as numbers. -/
theorem headerEmissionSteps : Obligations.HeaderEmissionSteps := by
  refine ⟨⟨rfl, rfl, rfl, rfl⟩, fun s => ⟨fun hshort => ?_, fun hlong => ?_, ?_, ?_, ?_⟩⟩
  · exact if_pos (shortForm_iff.2 hshort)
  · exact if_neg (mt shortForm_iff.1 (Nat.not_lt.2 hlong))
  · exact ⟨loOf s.elen, toNat_loOf _, rfl⟩
  · exact ⟨hiOf s.elen, toNat_hiOf _, fun hlong => by rw [toNat_hiOf]; omega, rfl⟩
  · exact ⟨loOf s.elen, toNat_loOf _, rfl⟩

/-- Settles O44: below `elen` the index does not wrap. -/
theorem payloadEmissionStep : Obligations.PayloadEmissionStep :=
  ⟨rfl, fun s v hv hlt =>
    ⟨s.eidx + 1, toNat_succ_of_lt hlt, execEPayload_next_iff.2 ⟨v, hv, rfl⟩⟩⟩

/-- Settles O45: the bytes of `ecrc` as numbers, and the encoder at rest after `E.END`. -/
theorem trailerEmissionSteps : Obligations.TrailerEmissionSteps :=
  ⟨⟨rfl, rfl, rfl⟩, fun s =>
    ⟨⟨hiOf s.ecrc, toNat_hiOf _, rfl⟩, ⟨loOf s.ecrc, toNat_loOf _, rfl⟩,
      ⟨encoderIdle (pushSink 0x03 s), rfl, rfl, rfl, rfl, rfl⟩⟩⟩

theorem hiOf_eq_ofNat (v : Half) : hiOf v = BitVec.ofNat 8 (v.toNat / 256) := by
  rw [← toNat_hiOf, BitVec.ofNat_toNat, BitVec.setWidth_eq]

theorem loOf_eq_ofNat (v : Half) : loOf v = BitVec.ofNat 8 v.toNat := by
  apply BitVec.eq_of_toNat_eq
  rw [toNat_loOf, BitVec.toNat_ofNat]

/-- The encoder writes the short form below 256 bytes (R45, R47). -/
theorem frameHeader_of_short {p : List Byte} (hshort : p.length < 256) :
    frameHeader p = [0x02, BitVec.ofNat 8 p.length] := by
  have hlen : (lengthHalf p).toNat = p.length := toNat_lengthHalf (by omega)
  rw [frameHeader, if_pos (shortForm_iff.2 (hlen ▸ hshort)), shortHeader, loOf_eq_ofNat, hlen]

/-- The encoder writes the long form from 256 bytes on (R46, R47). -/
theorem frameHeader_of_long {p : List Byte} (hlong : 256 ≤ p.length) (hmax : p.length ≤ 65535) :
    frameHeader p = [0x03, BitVec.ofNat 8 (p.length / 256), BitVec.ofNat 8 p.length] := by
  have hlen : (lengthHalf p).toNat = p.length := toNat_lengthHalf hmax
  have hform : ¬ shortForm (lengthHalf p) = true :=
    mt shortForm_iff.1 (Nat.not_lt.2 (hlen ▸ hlong))
  rw [frameHeader, if_neg hform, longHeader, hiOf_eq_ofNat, loOf_eq_ofNat, hlen]

/-- Settles O47: the sink grows by the frame, whose header has one form or the other. -/
theorem encodePushesTheFrame : Obligations.EncodePushesTheFrame := by
  intro s p hmax hidle
  refine ⟨encoderIdle { s with sink := s.sink ++ encodeFrame p },
    execEncode_next_iff.2 ⟨encodeRefusal_eq_none_iff.2 ⟨hmax, hidle⟩, rfl⟩,
    fun hshort => ?_, fun hlong => ?_, rfl, by rw [hidle]; rfl⟩
  · rw [encoderIdle_sink, encodeFrame_eq, frameHeader_of_short hshort, hiOf_eq_ofNat,
      loOf_eq_ofNat]
  · rw [encoderIdle_sink, encodeFrame_eq, frameHeader_of_long hlong hmax, hiOf_eq_ofNat,
      loOf_eq_ofNat]

/-- The first byte and the length of a header (R45, R46). -/
theorem frameHeader_form {p : List Byte} (hmax : p.length ≤ 65535) :
    (frameHeader p).head? = some (if p.length < 256 then 0x02 else 0x03) ∧
      (frameHeader p).length = if p.length < 256 then 2 else 3 := by
  by_cases hshort : p.length < 256
  · rw [frameHeader_of_short hshort, if_pos hshort, if_pos hshort]
    exact ⟨rfl, rfl⟩
  · rw [frameHeader_of_long (Nat.not_lt.1 hshort) hmax, if_neg hshort, if_neg hshort]
    exact ⟨rfl, rfl⟩

theorem head?_encodeFrame {p : List Byte} (hmax : p.length ≤ 65535) :
    (encodeFrame p).head? = some (if p.length < 256 then 0x02 else 0x03) := by
  rw [encodeFrame_eq, List.append_assoc, List.head?_append, (frameHeader_form hmax).1]
  rfl

theorem getLast?_encodeFrame (p : List Byte) : (encodeFrame p).getLast? = some 0x03 := by
  simp [encodeFrame_eq]

/-- The length of a frame (R100). -/
theorem length_encodeFrame {p : List Byte} (hmax : p.length ≤ 65535) :
    (encodeFrame p).length = p.length + (if p.length < 256 then 5 else 6) := by
  rw [encodeFrame_eq, List.length_append, List.length_append, (frameHeader_form hmax).2]
  simp only [List.length_cons, List.length_nil]
  split <;> omega

/-- The length of a frame tells that of its payload: short frames have at most 260 bytes, long ones
at least 262. -/
theorem length_eq_of_length_encodeFrame_eq {p q : List Byte} (hp : p.length ≤ 65535)
    (hq : q.length ≤ 65535) (h : (encodeFrame p).length = (encodeFrame q).length) :
    p.length = q.length := by
  rw [length_encodeFrame hp, length_encodeFrame hq] at h
  split at h <;> split at h <;> omega

/-- A header depends on the payload's length only. -/
theorem frameHeader_congr {p q : List Byte} (h : p.length = q.length) :
    frameHeader p = frameHeader q := by
  have hhalf : lengthHalf p = lengthHalf q := congrArg (BitVec.ofNat 16) h
  simp only [frameHeader, shortHeader, longHeader, hhalf]

/-- Different payloads give different frames (R100): equal frames have equal headers, and after them
payloads of one length. -/
theorem encodeFrame_injective {p q : List Byte} (hp : p.length ≤ 65535) (hq : q.length ≤ 65535)
    (h : encodeFrame p = encodeFrame q) : p = q := by
  have hlen : p.length = q.length :=
    length_eq_of_length_encodeFrame_eq hp hq (congrArg List.length h)
  rw [encodeFrame_eq, encodeFrame_eq, frameHeader_congr hlen, List.append_assoc,
    List.append_assoc] at h
  exact List.append_inj_left (List.append_cancel_left h) hlen

/-- Settles O51, from the parts of a frame. -/
theorem encodedFramesAreCanonicalAndDistinct :
    Obligations.EncodedFramesAreCanonicalAndDistinct :=
  ⟨fun p hp => ⟨head?_encodeFrame hp, getLast?_encodeFrame p, length_encodeFrame hp⟩,
    fun _ _ => encodeFrame_injective⟩

/-- A payload that is refused is refused as the whole operation and as a request (R98, R99). -/
theorem encode_refused {p : List Byte} {s : State} {r : Refusal} (h : encodeRefusal p s = some r)
    (rest : List Stimulus) :
    exec (.encode p) s = .refused r ∧
      (s.pending = .encodeRequest p :: rest → step s = .refused r) :=
  ⟨execEncode_refused h, fun hp =>
    (step_of_pending hp).trans (acceptEncode_refused (s := { s with pending := rest }) h)⟩

/-- Settles O48: the two reasons why an ENCODE has no meaning. -/
theorem encodeRefusesLongPayloadsAndBusyRequests :
    Obligations.EncodeRefusesLongPayloadsAndBusyRequests := by
  intro s p rest
  refine ⟨fun hlong => ?_, fun hmax hbusy => ?_⟩
  · exact encode_refused (encodeRefusal_eq_some_iff.2 (.inl ⟨hlong, rfl⟩)) rest
  · exact encode_refused (encodeRefusal_eq_some_iff.2 (.inr ⟨hmax, hbusy, rfl⟩)) rest

end Sys2Proof.Machine

/-! ### The checksum unit (R102 to R108) -/

namespace Sys2Proof.Machine

/-- R102 as a left fold. -/
theorem crc16_eq_foldl (s : List Byte) : crc16 s = s.foldl crcByte 0x0000 :=
  crcOver_eq_foldl crcInit s

/-- Settles O56: a fold over a joined list is one fold after the other. -/
theorem checksumIsIncremental : Obligations.ChecksumIsIncremental := by
  intro p q
  rw [crc16_eq_foldl, crc16_eq_foldl, List.foldl_append]

/-- While bit 15 is clear, a round is a shift (R104). -/
theorem crcRound_of_lt {r : Half} (h : r.toNat < 2 ^ 15) : crcRound r = r <<< 1 := by
  have hbit : r.getLsbD 15 = false := Nat.testBit_lt_two_pow h
  rw [crcRound, hbit, if_neg Bool.false_ne_true]

/-- While no set bit is shifted out, the rounds are shifts and the polynomial does not enter (R104). -/
theorem crcRounds_of_lt {n : Nat} {r : Half} (h : r.toNat * 2 ^ n < 2 ^ 16) :
    crcRounds n r = r <<< n := by
  induction n generalizing r with
  | zero => exact (BitVec.shiftLeft_zero r).symm
  | succ n ih =>
    have hmul : r.toNat * 2 ^ (n + 1) = r.toNat * 2 * 2 ^ n := by ring
    have hle : r.toNat * 2 ≤ r.toNat * 2 * 2 ^ n := Nat.le_mul_of_pos_right _ (Nat.two_pow_pos n)
    have hdouble : (r <<< 1).toNat = r.toNat * 2 := by
      rw [BitVec.toNat_shiftLeft, Nat.shiftLeft_eq]
      omega
    rw [crcRounds, crcRound_of_lt (by omega), ih (by rw [hdouble]; omega), Nat.add_comm,
      BitVec.shiftLeft_add]

/-- Eight rounds move a register below 256 into the high byte. -/
theorem crcRounds_zext16 (v : Byte) : crcRounds 8 (zext16 v) = highByte v := by
  refine crcRounds_of_lt ?_
  rw [toNat_zext16]
  omega

/-- "`CRC.BYTE(0, 0)` = 0" (R104). -/
theorem crcByte_zero_zero : crcByte 0x0000 0x00 = 0x0000 := crcRounds_zext16 0x00

/-- Adding its own high byte to a register leaves its low byte. -/
theorem xor_highByte_hiOf (r : Half) : r ^^^ highByte (hiOf r) = zext16 (loOf r) := by
  ext i hi
  rcases Nat.lt_or_ge i 8 with hlow | hhigh
  · simp [highByte, zext16, loOf, hlow, hi]
  · have hsub : i - 8 < 8 := by omega
    simp [highByte, zext16, hiOf, loOf, hhigh.not_gt, hsub, Nat.add_sub_of_le hhigh, hi]

/-- A register's own high byte moves its low byte up. -/
theorem crcByte_hiOf (r : Half) : crcByte r (hiOf r) = highByte (loOf r) := by
  rw [crcByte, xor_highByte_hiOf, crcRounds_zext16]

/-- A register that holds one byte in its high half is cleared by that byte. -/
theorem crcByte_highByte (v : Byte) : crcByte (highByte v) v = 0x0000 := by
  rw [crcByte, BitVec.xor_self]
  exact crcRounds_zext16 0x00

/-- R103: zero bytes leave the initial register. -/
theorem foldl_crcByte_replicate_zero (n : Nat) :
    (List.replicate n (0x00 : Byte)).foldl crcByte 0x0000 = 0x0000 := by
  induction n with
  | zero => rfl
  | succ n ih => rw [List.replicate_succ, List.foldl_cons, crcByte_zero_zero, ih]

/-- Settles O57: zero bytes leave the initial register, and of a checksum's two bytes the first
leaves the register's low byte, in its high half, and the second clears it. -/
theorem checksumZerosAndResidue : Obligations.ChecksumZerosAndResidue := by
  refine ⟨fun n p => ?_, fun p => ?_⟩
  · rw [checksumIsIncremental, crc16_eq_foldl (List.replicate n 0x00),
      foldl_crcByte_replicate_zero, ← crc16_eq_foldl]
  · rw [checksumIsIncremental, List.foldl_cons, crcByte_hiOf, List.foldl_cons, crcByte_highByte,
      List.foldl_nil]

/-- Settles O54: the value each call returns is its function's, that of `CRC16` as a fold. -/
theorem checksumServiceReturnsItsValue : Obligations.ChecksumServiceReturnsItsValue :=
  fun _ r v p => ⟨rfl, rfl, ⟨crcByte r v, rfl, rfl⟩, ⟨crc16 p, rfl, crc16_eq_foldl p⟩⟩

/-- Settles O55: the seven sequences run through the model's rounds. -/
theorem checksumReferenceValues : Obligations.ChecksumReferenceValues := by
  unfold Obligations.ChecksumReferenceValues
  decide +kernel

end Sys2Proof.Machine

/-! ### The boundary with the dispatcher and the error reporter (R109 to R113) -/

namespace Sys2Proof.Machine

/-- Settles O38: the stimulus alone says what the slot holds. -/
theorem registrationIsLastWriteWins : Obligations.RegistrationIsLastWriteWins :=
  ⟨fun _ _ _ hp => step_of_pending hp, fun _ _ _ hp => step_of_pending hp⟩

theorem reportKind_of_no_observer {s : State} (h : s.observer = none) (k : ErrorKind) :
    reportKind k s = s := by
  rw [reportKind, h]

theorem reportKind_of_observer {s : State} {o : Nat} (h : s.observer = some o) (k : ErrorKind) :
    reportKind k s = { s with observerCalls := s.observerCalls ++ [⟨o, k⟩] } := by
  rw [reportKind, h]

/-- Settles O40, by whether an observer is registered. -/
theorem reportCallsTheObserver : Obligations.ReportCallsTheObserver :=
  ⟨fun _ k h => congrArg Host.Outcome.next (reportKind_of_no_observer h k),
    fun _ k _ h => congrArg Host.Outcome.next (reportKind_of_observer h k)⟩

theorem dispatchMessage_of_no_handler {s : State} (h : s.handler = none) (id : Byte)
    (body : List Byte) : dispatchMessage id body s = reportKind .unhandledMessage s := by
  simp [dispatchMessage, handlerAnswer, callHandler, h]

/-- A registered handler is called; what it answers decides the report (R109). -/
theorem dispatchMessage_of_handler {s : State} {h : Nat} (hs : s.handler = some h) (id : Byte)
    (body : List Byte) :
    dispatchMessage id body s = { s with
      handlerCalls := s.handlerCalls ++ [⟨h, id, body, body.length⟩]
      observerCalls :=
        if Config.handlerAccepts s.handlerCalls.length h id body body.length then s.observerCalls
        else s.observerCalls ++ (s.observer.map fun o => ⟨o, .unhandledMessage⟩).toList } := by
  rw [dispatchMessage_eq, handlerAnswer, hs]
  dsimp only
  split_ifs <;> simp

/-- Settles O39: without a handler a dispatch is a report; with one, its answer decides. -/
theorem dispatchCallsTheHandler : Obligations.DispatchCallsTheHandler := by
  refine ⟨fun s id body hh ho => congrArg Host.Outcome.next ?_,
    fun s id body o hh ho => congrArg Host.Outcome.next ?_,
    fun s id body h hh => congrArg Host.Outcome.next ?_, fun _ => rfl⟩
  · exact (dispatchMessage_of_no_handler hh id body).trans (reportKind_of_no_observer ho _)
  · exact (dispatchMessage_of_no_handler hh id body).trans (reportKind_of_observer ho _)
  · rw [dispatchMessage_of_handler hh]
    cases s.observer <;> simp

/-! ### The reaction to the event of a byte-step (R109, R111, R116) -/

theorem react_error {s : State} {k : ErrorKind} (h : s.event = .error k) :
    react s = .next (reportKind k s) := by
  rw [react, h]; rfl

theorem react_completed_cons {s : State} {id : Byte} {body : List Byte}
    (h : s.event = .completed (id :: body)) : react s = .next (dispatchMessage id body s) := by
  rw [react, h]; rfl

theorem react_completed_nil {s : State} (h : s.event = .completed []) : react s = .next s := by
  rw [react, h]

/-- Until the reaction a byte-step leaves the slots and the records of calls. -/
theorem byteBody_afterPrologue_boundary {s u : State} {b : Byte} {now : Nat}
    (h : byteBody b (afterPrologue now s) = .next u) :
    u.handler = s.handler ∧ u.observer = s.observer ∧ u.handlerCalls = s.handlerCalls ∧
      u.observerCalls = s.observerCalls := by
  rw [byteBody_frame h, afterPrologue_frame now s]
  exact ⟨rfl, rfl, rfl, rfl⟩

/-- Settles O41: the reaction runs on the slots and records the step began with, by its event. -/
theorem everyEventIsHandledOnceInItsStep : Obligations.EveryEventIsHandledOnceInItsStep := by
  intro s t b now rest hp hstep
  obtain ⟨-, -, u, hc, oc, hbody, hreact, ht⟩ := step_rxByte_next hp hstep
  obtain ⟨hhandler, hobserver, hhcalls, hocalls⟩ := byteBody_afterPrologue_boundary hbody
  have hevent : t.event = u.event := (congrArg State.event ht :)
  rw [hevent]
  dsimp only at hhandler hobserver hhcalls hocalls
  rw [← hhandler, ← hobserver, ← hhcalls, ← hocalls]
  refine ⟨(congrArg State.handler ht :), (congrArg State.observer ht :), fun k he => ?_,
    fun id body he => ?_, fun he => ?_⟩
  · cases (react_error he).symm.trans hreact
    rw [reportKind_eq]
    exact ⟨rfl, rfl⟩
  · cases (react_completed_cons he).symm.trans hreact
    cases hh : u.handler with
    | none =>
      rw [dispatchMessage_of_no_handler hh, reportKind_eq]
      exact ⟨(List.append_nil _).symm, rfl⟩
    | some h =>
      rw [dispatchMessage_of_handler hh]
      exact ⟨rfl, rfl⟩
  · have hquiet : react u = .next u := he.elim react_noEvent react_completed_nil
    cases hquiet.symm.trans hreact
    exact ⟨rfl, rfl⟩

theorem enterPayload_event_ne_unhandledMessage {s : State}
    (h : s.event ≠ .error .unhandledMessage) :
    (enterPayload s).event ≠ .error .unhandledMessage := by
  rw [enterPayload_eq]
  split_ifs
  · simp
  · exact h
  · exact h

/-- The body of a byte-step raises the block's own kinds only (R111, R114). -/
theorem byteBody_event_ne_unhandledMessage {b : Byte} {s t : State}
    (h : s.event ≠ .error .unhandledMessage) (ht : byteBody b s = .next t) :
    t.event ≠ .error .unhandledMessage := by
  rw [byteBody_eq] at ht
  cases hs : s.stage <;> simp only [hs] at ht
  case awaitStart => split_ifs at ht <;> cases ht <;> exact h
  case lenShort => cases ht; exact enterPayload_event_ne_unhandledMessage h
  case lenLo => cases ht; exact enterPayload_event_ne_unhandledMessage h
  case payload =>
    obtain ⟨-, rfl⟩ := execDPayload_next_iff.1 ht
    exact h
  case awaitEnd =>
    split_ifs at ht
    · obtain ⟨-, p, -, hevent⟩ := execDEndOk_event ht
      rw [hevent]
      split_ifs <;> simp
    · cases ht
      simp
  all_goals cases ht; exact h

theorem afterPrologue_event_ne_unhandledMessage (now : Nat) (s : State) :
    (afterPrologue now s).event ≠ .error .unhandledMessage := by
  obtain h | h := afterPrologue_event now s <;> simp [h]

theorem emitStep_event {s t : State} (h : emitStep s = .next t) : t.event = s.event :=
  (congrArg State.event (emitStep_frame h) :)

theorem acceptEncode_event {p : List Byte} {s t : State} (h : acceptEncode p s = .next t) :
    t.event = s.event :=
  (congrArg State.event (acceptEncode_next_iff.1 h).2 :)

theorem call_event {f : Service} {s t : State} (h : exec (decodeCall f) s = .next t) :
    t.event = s.event := by
  obtain ⟨p, -, hp⟩ | ht := call_frame h
  · exact (congrArg State.event (execEncode_next_iff.1 hp).2 :)
  · exact (congrArg State.event ht :)

/-- A byte-step makes an event of the block's own; a reset none; any other step leaves the latch. -/
theorem step_event_ne_unhandledMessage {s t : State} (h : s.event ≠ .error .unhandledMessage)
    (ht : step s = .next t) : t.event ≠ .error .unhandledMessage := by
  obtain ⟨-, hemit⟩ | ⟨x, rest, -, hx⟩ := step_cases ht
  · exact emitStep_event hemit ▸ h
  · obtain ⟨b, now, -, -, -, u, hc, oc, hbody, -, rfl⟩ | ⟨-, rfl⟩ | ⟨-, rfl⟩ | ⟨p, -, hencode⟩ |
      ⟨-, hemit⟩ | ⟨f, -, hcall⟩ | ⟨n, -, rfl⟩ | ⟨n, -, rfl⟩ := hx
    · exact byteBody_event_ne_unhandledMessage (t := u)
        (afterPrologue_event_ne_unhandledMessage now _) hbody
    · exact Event.noConfusion
    · exact Event.noConfusion
    · exact acceptEncode_event hencode ▸ h
    · exact emitStep_event hemit ▸ h
    · exact call_event hcall ▸ h
    · exact h
    · exact h

/-- Settles O42: by the cases of a step, and of a dispatch by whether the payload is empty. -/
theorem unhandledMessageIsNotTheBlocks : Obligations.UnhandledMessageIsNotTheBlocks := by
  refine ⟨fun _ _ h ht => step_event_ne_unhandledMessage h ht, fun s t p h => ?_⟩
  cases p with
  | nil => cases h
  | cons id body =>
    obtain rfl := Host.Outcome.next.inj h
    rw [dispatchMessage_eq]

end Sys2Proof.Machine

/-! ### The time of a byte: the prologue, and the samples it refuses (R62, R120, R121) -/

namespace Sys2Proof.Machine

/-- The three ways to stay in time (R120). -/
theorem timeoutExpired_eq_false_iff {s : State} {now : Nat} :
    timeoutExpired s now = false ↔ s.cfg.timeoutEn = false ∨ s.stage = .awaitStart ∨
      now - s.lastActivityTime ≤ s.cfg.timeoutInterval := by
  rw [Bool.eq_false_iff, ne_eq, timeoutExpired_iff]
  simp only [not_and_or, Bool.not_eq_true, ne_eq, not_not, not_lt]

/-- A timeout: the error is raised and the sample kept (R120, R116). -/
theorem execDTimeoutPrologue_expired {s : State} {now : Nat} (hle : s.lastActivityTime ≤ now)
    (hw : exceededWidth s.cfg now = none) (hexp : timeoutExpired s now = true) :
    execDTimeoutPrologue now s =
      .next { raiseError .receiveTimeout s with lastActivityTime := now } :=
  execDTimeoutPrologue_next_iff.2 ⟨hle, hw, by rw [if_pos hexp]⟩

/-- No timeout: the sample is kept and nothing else happens (R120). -/
theorem execDTimeoutPrologue_inTime {s : State} {now : Nat} (hle : s.lastActivityTime ≤ now)
    (hw : exceededWidth s.cfg now = none) (hquiet : timeoutExpired s now = false) :
    execDTimeoutPrologue now s = .next { s with lastActivityTime := now } :=
  execDTimeoutPrologue_next_iff.2 ⟨hle, hw, by simp [hquiet]⟩

/-- Settles O15, by whether the timeout has expired. -/
theorem timeoutPrologueTestsTheGap : Obligations.TimeoutPrologueTestsTheGap :=
  fun _ _ hle hw =>
    ⟨fun hon hstage hlong =>
      execDTimeoutPrologue_expired hle hw (timeoutExpired_iff.2 ⟨hon, hstage, hlong⟩),
    fun hquiet => execDTimeoutPrologue_inTime hle hw (timeoutExpired_eq_false_iff.2 hquiet)⟩

/-- A late byte's whole step: the frame is abandoned, the byte selects its stage from `AwaitStart`,
and the timeout is what is reported (R122, R124). -/
theorem step_rxByte_expired {s : State} {b : Byte} {now : Nat} {rest : List Stimulus}
    (hp : s.pending = .rxByte b now :: rest) (hle : s.lastActivityTime ≤ now)
    (hw : exceededWidth s.cfg now = none) (hexp : timeoutExpired s now = true) :
    step s = .next (reportKind .receiveTimeout { raiseError .receiveTimeout s with
      stage := if b = 0x02 then .lenShort else if b = 0x03 then .lenHi else .awaitStart
      lastActivityTime := now, pending := rest }) := by
  have hafter := afterPrologue_expired (s := { s with pending := rest }) hexp
  rw [step_rxByte hp hle hw, hafter, byteBody_awaitStart rfl, andThen_next]
  exact react_error rfl

/-- Settles O27: the report of the timeout writes only the record of calls. -/
theorem timeoutComesBeforeEveryOtherError : Obligations.TimeoutComesBeforeEveryOtherError := by
  intro s b now rest hp hle hw hon hstage hlong
  refine ⟨_, step_rxByte_expired hp hle hw (timeoutExpired_iff.2 ⟨hon, hstage, hlong⟩), ?_⟩
  rw [reportKind_eq]
  exact ⟨rfl, rfl, rfl, rfl, rfl, rfl, rfl, rfl⟩

/-- A sample below the last one has no meaning (R121). -/
theorem execDTimeoutPrologue_decreasing {s : State} {now : Nat} (h : now < s.lastActivityTime) :
    execDTimeoutPrologue now s = .refused (.timeWentBack now s.lastActivityTime) :=
  (execDTimeoutPrologue_eq now s).trans (if_pos h)

/-- A sample past a wrap-around of the time counter has no meaning (R121). -/
theorem execDTimeoutPrologue_wrapped {s : State} {now w : Nat} (hle : s.lastActivityTime ≤ now)
    (hw : exceededWidth s.cfg now = some w) :
    execDTimeoutPrologue now s = .refused (.timeWrapped now w) := by
  rw [execDTimeoutPrologue_eq, if_neg (Nat.not_lt.2 hle), hw]

/-- A sample that neither decreases nor wraps around runs, with a timeout or without, and is kept. -/
theorem execDTimeoutPrologue_keepsTheSample {s : State} {now : Nat}
    (hle : s.lastActivityTime ≤ now) (hw : exceededWidth s.cfg now = none) :
    ∃ t, execDTimeoutPrologue now s = .next t ∧ t.lastActivityTime = now :=
  ⟨_, execDTimeoutPrologue_next_iff.2 ⟨hle, hw, rfl⟩, rfl⟩

/-- Settles O16: the prologue's own refusal, which the byte-step passes on. -/
theorem decreasingTimeIsRefused : Obligations.DecreasingTimeIsRefused :=
  ⟨fun _ _ hback => execDTimeoutPrologue_decreasing hback, fun s _ _ rest hp hback =>
    (step_of_pending hp).trans (byteStep_refused (s := { s with pending := rest }) hback)⟩

/-- Settles O58: the samples from `2 ^ w` on are those that exceed a width `w`. -/
theorem wrappedTimeIsRefused : Obligations.WrappedTimeIsRefused := by
  refine ⟨fun s now w hle hwidth hpow => ?_, fun s b now rest w hp hle hwidth hpow => ?_,
    fun s now hle hwidth => ?_, fun s now w hle hwidth hfits => ?_⟩
  · exact execDTimeoutPrologue_wrapped hle (exceededWidth_eq_some_iff.2 ⟨hwidth, hpow⟩)
  · exact (step_of_pending hp).trans (byteStep_wrapped (s := { s with pending := rest }) hle
      (exceededWidth_eq_some_iff.2 ⟨hwidth, hpow⟩))
  · exact execDTimeoutPrologue_keepsTheSample hle
      (exceededWidth_eq_none_iff.2 fun v hv => by cases hwidth.symm.trans hv)
  · exact execDTimeoutPrologue_keepsTheSample hle
      (exceededWidth_eq_none_iff.2 fun v hv => by cases hwidth.symm.trans hv; exact hfits)

end Sys2Proof.Machine

/-! ### What does not move the decoder (R122, R128, R140) -/

namespace Sys2Proof.Machine

theorem call_decoderPart {f : Service} {s t : State} (h : exec (decodeCall f) s = .next t) :
    decoderPart t = decoderPart s := by
  obtain ⟨p, -, hp⟩ | ht := call_frame h
  · exact (congrArg decoderPart (execEncode_next_iff.1 hp).2 :)
  · exact (congrArg decoderPart ht :)

/-- A stimulus that reaches the decoder: a received byte, or one of the two resets (R30, R129). -/
def MovesTheDecoder (x : Stimulus) : Prop :=
  (∃ b now, x = .rxByte b now) ∨ x = .softReset ∨ x = .hardReset

/-- The encoder's turn, the requests, the calls and the registrations pass the decoder by. -/
theorem step_decoderPart {s t : State}
    (hquiet : ∀ x rest, s.pending = x :: rest → ¬ MovesTheDecoder x) (h : step s = .next t) :
    decoderPart t = decoderPart s := by
  obtain ⟨-, hemit⟩ | ⟨x, rest, hp, hx⟩ := step_cases h
  · exact emitStep_decoderPart hemit
  have hstill := hquiet x rest hp
  obtain ⟨b, now, hbyte, -⟩ | ⟨hsoft, -⟩ | ⟨hhard, -⟩ | ⟨p, -, hencode⟩ | ⟨-, hemit⟩ |
    ⟨f, -, hcall⟩ | ⟨n, -, rfl⟩ | ⟨n, -, rfl⟩ := hx
  · exact absurd (.inl ⟨b, now, hbyte⟩) hstill
  · exact absurd (.inr (.inl hsoft)) hstill
  · exact absurd (.inr (.inr hhard)) hstill
  · exact (acceptEncode_decoderPart hencode :)
  · exact (emitStep_decoderPart hemit :)
  · exact (call_decoderPart hcall :)
  · rfl
  · rfl

/-- Settles O32: field by field what `step_decoderPart` says of all the decoder's state at once. -/
theorem silenceIsNotDetected : Obligations.SilenceIsNotDetected := by
  intro s t hbyte hsoft hhard h
  have hquiet : ∀ x rest, s.pending = x :: rest → ¬ MovesTheDecoder x := by
    rintro x rest hp (⟨b, now, rfl⟩ | rfl | rfl)
    · exact hbyte b now rest hp
    · exact hsoft rest hp
    · exact hhard rest hp
  have hsame := step_decoderPart hquiet h
  simp only [decoderPart, Prod.mk.injEq] at hsame
  obtain ⟨hstage, hlength, hcount, hcrc, hpb, htime, hevent, -⟩ := hsame
  exact ⟨hstage, hlength, hcount, hcrc, hpb, htime, hevent⟩

/-- Settles O37: with nothing pending it is the encoder's turn, and at rest it takes no step. -/
theorem idleStepChangesNothing : Obligations.IdleStepChangesNothing := by
  intro s hp hidle
  calc step s = emitStep s := by rw [step_eq, hp]
    _ = .next s := by rw [emitStep_eq, hidle]

end Sys2Proof.Machine

/-! ### The decoder at rest: hardware reset and the first byte (R26, R27, R129, R130) -/

namespace Sys2Proof.Machine

/-- A byte's whole step from `AwaitStart`: no gap is a timeout there (R120), and the sample is written
without having been read (R26). -/
theorem step_rxByte_awaitStart {s : State} {b : Byte} {now : Nat} {rest : List Stimulus}
    (hs : s.stage = .awaitStart) (hp : s.pending = .rxByte b now :: rest)
    (hle : s.lastActivityTime ≤ now) (hw : exceededWidth s.cfg now = none) :
    step s = .next { s with
      stage := if b = 0x02 then .lenShort else if b = 0x03 then .lenHi else .awaitStart
      lastActivityTime := now, event := .noEvent, pending := rest } := by
  have hquiet : timeoutExpired s now = false := timeoutExpired_eq_false_iff.2 (.inr (.inl hs))
  have hstage : (arrived now rest s).stage = .awaitStart := hs
  rw [step_rxByte_inTime hp hle hw hquiet, byteBody_awaitStart hstage, andThen_next]
  exact react_noEvent rfl

/-- Settles O31: from either last sample the step answers one state, in which only the new sample
stands. -/
theorem lastSampleIsNotReadAtRest : Obligations.LastSampleIsNotReadAtRest := by
  intro s b now before rest hs hle hbefore hw hp
  have hstep := step_rxByte_awaitStart hs hp hle hw
  have hother :=
    step_rxByte_awaitStart (s := { s with lastActivityTime := before }) hs hp hbefore hw
  exact ⟨⟨_, hstep⟩, hother.trans hstep.symm⟩

theorem clear_atRest (s : State) : AtRest (clear s) := ⟨rfl, rfl, rfl, rfl, rfl⟩

/-- The encoder's part of the reset leaves the cleared decoder as it is (R129). -/
theorem hardReset_atRest (s : State) : AtRest (hardReset s) :=
  clear_atRest { s with event := .noEvent, lastActivityTime := 0 }

/-- A hardware reset takes effect at once, in every stage (R129). -/
theorem step_hardReset {s : State} {rest : List Stimulus} (hp : s.pending = .hardReset :: rest) :
    step s = .next (hardReset { s with pending := rest }) :=
  step_of_pending hp

/-- Settles O36: the decoder is at rest after the stimulus as in the reset state of a configuration;
every other field is the one the reset writes or leaves. -/
theorem hardwareReset : Obligations.HardwareReset :=
  ⟨fun _ _ hp => ⟨_, step_hardReset hp, hardReset_atRest _, rfl, rfl, rfl, rfl, rfl, rfl, rfl, rfl,
      rfl, rfl, rfl, rfl⟩,
    fun _ => ⟨⟨rfl, rfl, rfl, rfl, rfl⟩, rfl, rfl, rfl, rfl, rfl, rfl⟩⟩

end Sys2Proof.Machine
